-- ==== Sys2Proof/Word.lean ====
section
/-! DEFINITION. The word types of PCODEC (spec 00_scope.md R9). -/

namespace Sys2Proof

/-- One byte of MEM or of a packet (R9, R45). -/
abbrev Byte := BitVec 8

/-- A 16-bit field: pktsize, checksum, the accumulator ACC (R9). -/
abbrev Half := BitVec 16

/-- A 32-bit word: an interface register, a MEM address, a length, a command word (R9, R60). -/
abbrev Word := BitVec 32

/-- The 64-bit timestamp pattern, which no command interprets (R9, R29, R103). -/
abbrev Stamp := BitVec 64

end Sys2Proof
end

