-- ==== Sys2Proof/Config.lean ====
section
/-! DEFINITION. What an implementation of PCODEC fixes: the parameters of spec 00_scope.md R7 and R8. -/

namespace Sys2Proof

/-- The implementation parameters. They are configuration, not state (R17): no step changes them. They are plain
data that a state carries, so that a claim over all states is a claim over all configurations (log entry 2). -/
structure Config where
  /-- NUM_SLOTS, the number of parser slots (R7). -/
  numSlots : Nat
  /-- MEM_SIZE, the size of MEM in bytes (R8). -/
  memSize : Nat
  deriving DecidableEq, Repr

namespace Config

/-- The ranges R7 and R8 give: NUM_SLOTS in 1..16 and MEM_SIZE in 1..2^32. -/
abbrev wf (c : Config) : Prop :=
  1 ≤ c.numSlots ∧ c.numSlots ≤ 16 ∧ 1 ≤ c.memSize ∧ c.memSize ≤ 2 ^ 32

/-- The reference configuration of R7 and R8: 4 slots and 0x20000 bytes. DESIGN CHOICE (log entry 2): the
machine after `State.reset` has this one. -/
def reference : Config := { numSlots := 4, memSize := 0x20000 }

end Config

end Sys2Proof
end

