-- ==== Sys2Proof/Syntax.lean ====
section
/-! DEFINITION. The commands of PCODEC: one constructor for each row of spec/opcode_table.json (30_encoding.md R61). -/

namespace Sys2Proof

/-- A command. The SLOT field of the last three is four bits wide (R60, R62), so a slot number is a `Fin 16`. All
other operands come from registers (R67). -/
inductive Instr where
  /-- PACK: serialize a header into MEM (R100). -/
  | pack
  /-- UNPACK: deserialize a header from MEM into the RES registers (R101). -/
  | unpack
  /-- CSUM: checksum a MEM range from an explicit seed (R120). -/
  | csum
  /-- CSUMC: continue a checksum from ACC (R121). -/
  | csumc
  /-- BUILD: assemble a packet in MEM (R130). -/
  | build
  /-- PARSE s: parse and validate a header into slot s (R142). -/
  | parse (slot : Fin 16)
  /-- VALIDATE s: check the checksum of slot s over its payload (R150). -/
  | validate (slot : Fin 16)
  /-- RELEASE s: discard the parser instance in slot s (R155). -/
  | release (slot : Fin 16)
  deriving DecidableEq, Repr

end Sys2Proof
end

