-- ==== Sys2Proof/WellFormed.lean ====
section
/-! DEFINITION. Which commands exist on a block with NUM_SLOTS slots (30_encoding.md R60, R62). -/

namespace Sys2Proof

/-- A command is well formed when the slot it names exists: SLOT < NUM_SLOTS (R60, R62). -/
def Instr.wf (numSlots : Nat) (i : Instr) : Bool :=
  match i with
  | .pack => true
  | .unpack => true
  | .csum => true
  | .csumc => true
  | .build => true
  | .parse k => decide (k.val < numSlots)
  | .validate k => decide (k.val < numSlots)
  | .release k => decide (k.val < numSlots)

end Sys2Proof
end

