-- ==== Sys2Proof/Decode.lean ====
section
/-! DEFINITION. The command word: its fields, its decoder and its encoder (spec 30_encoding.md R60 to R66, R70). -/

namespace Sys2Proof

/-- Why a word is ILLEGAL (R60, R64). The four names are the model's (log entry 11): the block has the one verdict
ILLEGAL_COMMAND for all of them. -/
inductive DecodeError where
  /-- A bit of RSV, 31:12, is set (R63). -/
  | reservedBits
  /-- OPC is 0x00 or in 0x09..0xFF (R64). -/
  | unknownOpcode
  /-- SLOT is not 0 on a command that uses no slot (R63). -/
  | slotNotZero
  /-- SLOT is NUM_SLOTS or more (R62). -/
  | noSuchSlot
  deriving DecidableEq, Repr

/-- OPC, bits 7:0 of a command word (R60). -/
def opcField (w : Word) : Byte := w.extractLsb' 0 8

/-- SLOT, bits 11:8 of a command word (R60). -/
def slotField (w : Word) : Fin 16 := (w.extractLsb' 8 4).toFin

/-- RSV, bits 31:12 of a command word (R60). -/
def rsvField (w : Word) : BitVec 20 := w.extractLsb' 12 20

/-- A command that uses no slot is legal only with SLOT = 0 (R60, R63). -/
def decodePlain (slot : Fin 16) (i : Instr) : Except DecodeError Instr :=
  if slot = 0 then .ok i else .error .slotNotZero

/-- A slot command is legal only with SLOT < NUM_SLOTS (R60, R62). -/
def decodeSlotted (numSlots : Nat) (slot : Fin 16) (i : Instr) : Except DecodeError Instr :=
  if slot.val < numSlots then .ok i else .error .noSuchSlot

/-- `Decode(w)` of R60, with the opcode map of R61. -/
def decode (numSlots : Nat) (w : Word) : Except DecodeError Instr :=
  if rsvField w ≠ 0 then .error .reservedBits
  else match (opcField w).toNat with
    | 0x01 => decodePlain (slotField w) .pack
    | 0x02 => decodePlain (slotField w) .unpack
    | 0x03 => decodePlain (slotField w) .csum
    | 0x04 => decodePlain (slotField w) .csumc
    | 0x05 => decodePlain (slotField w) .build
    | 0x06 => decodeSlotted numSlots (slotField w) (.parse (slotField w))
    | 0x07 => decodeSlotted numSlots (slotField w) (.validate (slotField w))
    | 0x08 => decodeSlotted numSlots (slotField w) (.release (slotField w))
    | _ => .error .unknownOpcode

/-- The OPC of each command (R61). -/
def Instr.opcode (i : Instr) : Byte :=
  match i with
  | .pack => 0x01
  | .unpack => 0x02
  | .csum => 0x03
  | .csumc => 0x04
  | .build => 0x05
  | .parse _ => 0x06
  | .validate _ => 0x07
  | .release _ => 0x08

/-- The slot a command names, where it names one (R62). -/
def Instr.slotOf (i : Instr) : Option (Fin 16) :=
  match i with
  | .pack | .unpack | .csum | .csumc | .build => none
  | .parse k | .validate k | .release k => some k

/-- The word of each command, as R70 lists them. -/
def encode (i : Instr) : Word :=
  match i with
  | .pack => 0x00000001
  | .unpack => 0x00000002
  | .csum => 0x00000003
  | .csumc => 0x00000004
  | .build => 0x00000005
  | .parse k => 0x00000006 ||| (BitVec.ofNat 32 k.val <<< 8)
  | .validate k => 0x00000007 ||| (BitVec.ofNat 32 k.val <<< 8)
  | .release k => 0x00000008 ||| (BitVec.ofNat 32 k.val <<< 8)

/-- The instruction the decoder reads from the `nbits` bits `w` numbered as spec/opcode_table.json numbers them. A
command word is one 32-bit word with bit 0 least significant (R10, R60), so no words are laid out: every bit at or
above `nbits` is 0. The number of slots is the reference configuration's (log entry 10). -/
def decodeTableWord (nbits w : Nat) : Option Instr :=
  (decode Config.reference.numSlots (BitVec.ofNat 32 (w % 2 ^ nbits))).toOption

end Sys2Proof
end

