-- ==== Sys2Proof/Machine/State.lean ====
section
/-! DEFINITION. The state of PCODEC as plain data (spec 10_state.md R17 to R44), its reset (70_reset_and_hazards.md
R230, R231), and the reasons a step can stop. -/

namespace Sys2Proof.Machine

/-- The state of a parser slot (R36). -/
inductive SlotState where
  /-- No parser instance is held. -/
  | empty
  /-- A header passed PARSE; the slot waits for VALIDATE. -/
  | headerParsed
  /-- VALIDATE found the checksum equal; the payload is readable. -/
  | validated
  /-- VALIDATE raised CHECKSUM_ERROR. -/
  | failed
  deriving DecidableEq, Repr

/-- One parser slot `P[s]` (R35). -/
structure Slot where
  state : SlotState
  /-- The unpacked header fields (R37). -/
  msgtype : Byte
  pktsize : Half
  /-- The received checksum (R37). -/
  checksum : Half
  ts : Stamp
  /-- pktsize - 16 (R37). -/
  datasize : Half
  /-- Where the validated payload lies in MEM (R38). -/
  pbase : Word
  plen : Word
  /-- Hidden: the header with its checksum field forced to zero (R39). -/
  hdrbuf : Vector Byte 16
  deriving DecidableEq, Repr

/-- The empty value of a slot, which `Discard(s)` and reset give it (R141, R230). -/
def Slot.empty : Slot :=
  { state := .empty, msgtype := 0, pktsize := 0, checksum := 0, ts := 0, datasize := 0, pbase := 0, plen := 0,
    hdrbuf := #v[0, 0, 0, 0, 0, 0, 0, 0, 0, 0, 0, 0, 0, 0, 0, 0] }

/-- The operand registers ARG_* (R25 to R30). -/
structure ArgRegs where
  msgtype : Byte
  pktsize : Half
  checksum : Half
  seed : Half
  tsHi : Word
  tsLo : Word
  src : Word
  len : Word
  dst : Word
  deriving DecidableEq, Repr

/-- The result registers RES_* (R31 to R33). -/
structure ResRegs where
  sync : BitVec 24
  msgtype : Byte
  pktsize : Half
  checksum : Half
  tsHi : Word
  tsLo : Word
  deriving DecidableEq, Repr

/-- A host step (R16). A register access carries its size in bytes and its offset in the register space
0x000..0xFFF, so that the accesses which R41 puts outside the interface can be written down and refused. -/
inductive HostStep where
  | regRead (size : Nat) (offset : BitVec 12)
  | regWrite (size : Nat) (offset : BitVec 12) (value : Word)
  | memRead (addr : Nat)
  | memWrite (addr : Nat) (byte : Byte)
  deriving DecidableEq, Repr

/-- What a host step returns to the host (R244, column "block returns"). -/
inductive Reply where
  | word (value : Word)
  | byte (value : Byte)
  deriving DecidableEq, Repr

/-- The reasons the machine stops with a fault: none. No error stops PCODEC (R205): an error is an outcome in STATUS
and ERRINFO (R200). Nothing raises a fault (log entry 8). -/
inductive Fault where
  deriving DecidableEq, Repr

/-- The reasons the model gives a step no meaning. -/
inductive Refusal where
  /-- An instruction without a meaning yet, raised by an arm of `exec` only. Safe. No arm raises it. -/
  | notModelled (mnemonic : String)
  /-- A register access of a size other than 4 bytes, raised by a host step: "outside the interface. The model
  refuses it and gives it no meaning" (R41, U10). Safe. -/
  | registerAccessNotWord
  /-- A register access at an offset that is not a multiple of 4, raised by a host step (R41, U10). Safe. -/
  | registerAccessUnaligned
  /-- A host MEM access at an address >= MEM_SIZE, raised by a host step: "outside the interface and is refused by
  the model" (R244, U11). Safe. -/
  | memAddressOutside
  deriving DecidableEq, Repr

/-- The state of PCODEC (R17), and the two fields of the model's own (host, reply). -/
structure State where
  /-- The parameters NUM_SLOTS and MEM_SIZE (R7, R8): configuration, changed by no step. -/
  cfg : Config
  /-- STATUS: CODE 3:0, CLASS 5:4, LASTOP 15:8 (R21). -/
  status : Half
  /-- ERRINFO (R23). -/
  errinfo : Word
  /-- ACC, the checksum accumulator (R24). -/
  acc : Half
  /-- ARG_* (R25 to R30). -/
  args : ArgRegs
  /-- RES_* (R31 to R33). -/
  res : ResRegs
  /-- P[0], ..., P[NUM_SLOTS - 1] (R35). -/
  slots : List Slot
  /-- MEM (R45): cells with strictly rising addresses, none equal to what an unlisted address reads as. -/
  mem : List Host.Cell
  /-- Model's own: the host steps still to be performed, in order (R243; log entry 3). -/
  host : List HostStep
  /-- Model's own: what the last host step returned (R244; log entry 5). -/
  reply : Option Reply
  deriving DecidableEq, Repr

/-- The block right after reset (R230, R231), for given NUM_SLOTS and MEM_SIZE and a given MEM_INIT: `mem` lists
MEM_INIT's bytes in the canonical form of memory. Reset is an event, not a command (R232). -/
def State.resetWith (cfg : Config) (mem : List Host.Cell) : State :=
  { cfg := cfg
    status := 0
    errinfo := 0
    acc := 0
    args := { msgtype := 0, pktsize := 0, checksum := 0, seed := 0, tsHi := 0, tsLo := 0, src := 0, len := 0, dst := 0 }
    res := { sync := 0, msgtype := 0, pktsize := 0, checksum := 0, tsHi := 0, tsLo := 0 }
    slots := List.replicate cfg.numSlots Slot.empty
    mem := mem
    host := []
    reply := none }

/-- The machine right after reset: the reference configuration (log entry 2), memory with nothing listed (log
entry 1), and no host step yet (log entry 3). -/
def State.reset : State := State.resetWith Config.reference []

end Sys2Proof.Machine
end

