-- ==== Sys2Proof/Machine/Flags.lean ====
section
/-! DEFINITION. STATUS, the only condition-code state (spec 10_state.md R21, R22): its codes and classes
(60_exceptions.md R201, R202) and its fields. -/

namespace Sys2Proof.Machine

/-- The outcomes of a command (R201). -/
inductive Code where
  | ok
  | headerSizeError
  | syncError
  | checksumError
  | pktsizeError
  | lengthError
  | stateError
  | boundsError
  | illegalCommand
  deriving DecidableEq, Repr

/-- The STATUS.CODE value of an outcome (R201, column CODE). -/
def codeBits (c : Code) : BitVec 4 :=
  match c with
  | .ok => 0
  | .headerSizeError => 1
  | .syncError => 2
  | .checksumError => 3
  | .pktsizeError => 4
  | .lengthError => 5
  | .stateError => 6
  | .boundsError => 7
  | .illegalCommand => 8

/-- The STATUS.CLASS value of an outcome (R201, column CLASS; R202): 0 none, 1 framing, 2 corruption, 3 usage. -/
def classBits (c : Code) : BitVec 2 :=
  match c with
  | .ok => 0
  | .headerSizeError => 1
  | .syncError => 1
  | .checksumError => 2
  | .pktsizeError => 1
  | .lengthError => 3
  | .stateError => 3
  | .boundsError => 3
  | .illegalCommand => 3

/-- STATUS put together (R21): LASTOP 15:8, zero 7:6, CLASS 5:4, CODE 3:0. -/
def statusWord (op : Byte) (c : Code) : Half := op ++ 0#2 ++ classBits c ++ codeBits c

/-- STATUS.CODE, bits 3:0 (R21). -/
def codeField (st : Half) : BitVec 4 := st.extractLsb' 0 4

/-- STATUS.CLASS, bits 5:4 (R21). -/
def classField (st : Half) : BitVec 2 := st.extractLsb' 4 2

/-- STATUS bits 7:6, which read 0 (R21). -/
def zeroField (st : Half) : BitVec 2 := st.extractLsb' 6 2

/-- STATUS.LASTOP, bits 15:8 (R21). -/
def lastopField (st : Half) : Byte := st.extractLsb' 8 8

/-- The two-bit encoding of a slot's state, as P_STATE(s) and STATE_ERROR's ERRINFO show it (R36). -/
def slotStateBits (st : SlotState) : BitVec 2 :=
  match st with
  | .empty => 0
  | .headerParsed => 1
  | .validated => 2
  | .failed => 3

end Sys2Proof.Machine
end

