-- ==== Sys2Proof/Machine/Wire.lean ====
section
/-! DEFINITION. The helpers of spec 00_scope.md R12 and R14: byte order, PackHeader, UnpackHeader, Fold. -/

namespace Sys2Proof.Machine

/-- The sync marker as a 24-bit value, sync[0] in bits 23:16 (R74). -/
def syncTriplet : BitVec 24 := 0xA39D7A

/-- `be16(b0, b1)` (R12): the first byte is the most significant (R46). -/
def be16 (b0 b1 : Byte) : Half := b0 ++ b1

/-- `be64(b0..b7)` (R12): the first byte is the most significant (R46). -/
def be64 (b0 b1 b2 b3 b4 b5 b6 b7 : Byte) : Stamp := b0 ++ b1 ++ b2 ++ b3 ++ b4 ++ b5 ++ b6 ++ b7

/-- `v[8*i+7 : 8*i]`, byte `i` of a value, counting from the least significant (R10). -/
def byteOf {n : Nat} (v : BitVec n) (i : Nat) : Byte := v.extractLsb' (8 * i) 8

/-- `PackHeader(mt, ps, ck, ts)` (R14): the wire layout of R72, most significant byte first. -/
def packHeader (mt : Byte) (ps ck : Half) (ts : Stamp) : Vector Byte 16 :=
  #v[0xA3, 0x9D, 0x7A, mt,
     byteOf ps 1, byteOf ps 0,
     byteOf ck 1, byteOf ck 0,
     byteOf ts 7, byteOf ts 6, byteOf ts 5, byteOf ts 4, byteOf ts 3, byteOf ts 2, byteOf ts 1, byteOf ts 0]

/-- The five header fields, as `UnpackHeader` gives them (R14, R73). -/
structure Header where
  sync : BitVec 24
  msgtype : Byte
  pktsize : Half
  checksum : Half
  ts : Stamp
  deriving DecidableEq, Repr

/-- `UnpackHeader(h)` (R14). -/
def unpackHeader (h : Vector Byte 16) : Header :=
  { sync := h[0] ++ h[1] ++ h[2]
    msgtype := h[3]
    pktsize := be16 h[4] h[5]
    checksum := be16 h[6] h[7]
    ts := be64 h[8] h[9] h[10] h[11] h[12] h[13] h[14] h[15] }

/-- `Fold(s, seed)` (R14): each byte is zero-extended to 16 bits and XORed in, left to right. -/
def fold (s : List Byte) (seed : Half) : Half :=
  s.foldl (fun acc b => acc ^^^ b.setWidth 16) seed

end Sys2Proof.Machine
end

