-- ==== Sys2Proof/Machine/Ops.lean ====
section
/-! DEFINITION. The named operations over MEM, the registers and the slots, and the two ways a command ends: `finish`
and `raise` (spec 00_scope.md R12, 60_exceptions.md R203). -/

namespace Sys2Proof.Machine

/-- MEM as plain data (R45). -/
abbrev Memory := List Host.Cell

/-- What an address that is not listed reads as. DESIGN CHOICE (log entry 1): the spec leaves MEM_INIT to the platform
(R231); every MEM_INIT is some canonical list over this value. -/
def Memory.unlisted : Byte := 0

/-- The canonical form: addresses strictly rising, and no entry equal to what an unlisted address reads as. -/
abbrev Memory.wf (m : Memory) : Prop :=
  m.Pairwise (fun c d => c.1 < d.1) ∧ ∀ c ∈ m, c.2 ≠ Memory.unlisted

/-- The byte at an address. -/
def Memory.read (m : Memory) (a : Nat) : Byte :=
  match m with
  | [] => Memory.unlisted
  | c :: rest => if c.1 = a then c.2 else Memory.read rest a

/-- Put a cell before the first cell with a higher address. -/
def Memory.place (m : Memory) (c : Host.Cell) : Memory :=
  match m with
  | [] => [c]
  | d :: rest => if c.1 < d.1 then c :: d :: rest else d :: Memory.place rest c

/-- Store one byte; storing what an unlisted address reads as removes the entry. -/
def Memory.write (m : Memory) (a : Nat) (b : Byte) : Memory :=
  let others := m.filter (fun c => decide (c.1 ≠ a))
  if b = Memory.unlisted then others else Memory.place others (a, b)

/-- `MemRead(addr, n)` (R12): n bytes in address order. Addresses never wrap (R50). -/
def Memory.readBytes (m : Memory) (a n : Nat) : List Byte :=
  match n with
  | 0 => []
  | k + 1 => Memory.read m a :: Memory.readBytes m (a + 1) k

/-- `MemWrite(addr, n, s)` (R12): `s[i]` goes to MEM[addr+i]. -/
def Memory.writeBytes (m : Memory) (a : Nat) (s : List Byte) : Memory :=
  match s with
  | [] => m
  | b :: rest => Memory.writeBytes (Memory.write m a b) (a + 1) rest

/-- The 16 bytes of a header in MEM, `MemRead(addr, 16)`. -/
def Memory.readHeader (m : Memory) (a : Nat) : Vector Byte 16 :=
  let b := fun i => Memory.read m (a + i)
  #v[b 0, b 1, b 2, b 3, b 4, b 5, b 6, b 7, b 8, b 9, b 10, b 11, b 12, b 13, b 14, b 15]

/-- Write STATUS (all three fields, R21) and ERRINFO. -/
def State.setOutcome (op : Byte) (c : Code) (info : Word) (s : State) : State :=
  { s with status := statusWord op c, errinfo := info }

/-- Write ACC. -/
def State.setAcc (v : Half) (s : State) : State := { s with acc := v }

/-- Write the RES registers. -/
def State.setRes (r : ResRegs) (s : State) : State := { s with res := r }

/-- Write the ARG registers. -/
def State.setArgs (a : ArgRegs) (s : State) : State := { s with args := a }

/-- Replace MEM. -/
def State.setMem (m : Memory) (s : State) : State := { s with mem := m }

/-- Replace the host steps still to be performed. -/
def State.setHost (l : List HostStep) (s : State) : State := { s with host := l }

/-- Record what a host step returns to the host (R244). -/
def State.setReply (r : Option Reply) (s : State) : State := { s with reply := r }

/-- Slot `P[k]`. A number that is no slot of the block reads as the empty value; no decoded command and no mapped
register names one (log entry 12). -/
def State.slot (s : State) (k : Nat) : Slot := s.slots.getD k Slot.empty

/-- Write slot `P[k]`; a number that is no slot of the block changes nothing (log entry 12). -/
def State.setSlot (k : Nat) (p : Slot) (s : State) : State := { s with slots := s.slots.set k p }

/-- `Discard(s)` (R141). -/
def discardSlot (k : Nat) (s : State) : State := s.setSlot k Slot.empty

/-- `raise E(info)` (R12, R203): taking an error is the one shared operation of all commands. PCODEC has no trap: the
outcome is STATUS and ERRINFO, nothing is saved, no mode changes and control goes nowhere (R200, R207). -/
def raise (op : Byte) (c : Code) (info : Word) (s : State) : Host.Outcome State Fault Refusal :=
  .next (s.setOutcome op c info)

/-- `finish` (R12): CODE = OK and ERRINFO = 0. There is no return from an error (R208): the next command is simply
accepted (R205). -/
def finish (op : Byte) (s : State) : Host.Outcome State Fault Refusal :=
  .next (s.setOutcome op .ok 0)

end Sys2Proof.Machine
end

