-- ==== Sys2Proof/Machine/Operands.lean ====
section
/-! DEFINITION. The operands of the commands (spec 30_encoding.md R67, R68; 20_memory.md R49, R50) and the RES view of a
header. -/

namespace Sys2Proof.Machine

/-- `InBounds(base, n)` (R49): the sum is over the integers and never wraps (R50). -/
abbrev InBounds (s : State) (base n : Nat) : Prop := base + n ≤ s.cfg.memSize

/-- The address ARG_SRC (R30). -/
def srcAddr (s : State) : Nat := s.args.src.toNat

/-- The length ARG_LEN in bytes (R30). -/
def srcLen (s : State) : Nat := s.args.len.toNat

/-- The address ARG_DST (R30). -/
def dstAddr (s : State) : Nat := s.args.dst.toNat

/-- The source bytes `MemRead(ARG_SRC, ARG_LEN)` (R30, R51). -/
def srcBytes (s : State) : List Byte := Memory.readBytes s.mem (srcAddr s) (srcLen s)

/-- The source header `MemRead(ARG_SRC, 16)` (R51). -/
def srcHeader (s : State) : Vector Byte 16 := Memory.readHeader s.mem (srcAddr s)

/-- `ARG_TS = x[ARG_TS_HI] << 32 | x[ARG_TS_LO]` (R29, R68). -/
def argTs (s : State) : Stamp := s.args.tsHi ++ s.args.tsLo

/-- `ts[63:32]` (R68). -/
def stampHi (ts : Stamp) : Word := ts.extractLsb' 32 32

/-- `ts[31:0]` (R68). -/
def stampLo (ts : Stamp) : Word := ts.extractLsb' 0 32

/-- A header's fields as the RES registers hold them (R31 to R33). -/
def resOf (h : Header) : ResRegs :=
  { sync := h.sync, msgtype := h.msgtype, pktsize := h.pktsize, checksum := h.checksum,
    tsHi := stampHi h.ts, tsLo := stampLo h.ts }

end Sys2Proof.Machine
end

