-- ==== Sys2Proof/Machine/Builder.lean ====
section
/-! DEFINITION. The packet-builder datapath: BUILD (spec 42_builder.md). -/

namespace Sys2Proof.Machine

/-- The largest payload: 65535 - 16 bytes (R9, R130). -/
def maxPayload : Nat := 65519

/-- `ps <- 16 + n`, step 1 of BUILD (R130); no overflow for n <= 65519. -/
def builtSize (s : State) : Half := 16 + s.args.len.setWidth 16

/-- The header BUILD writes with a given checksum field: h0 with 0, h1 with the real checksum (R130, steps 2 and 5). -/
def builtHeader (s : State) (ck : Half) : Vector Byte 16 :=
  packHeader s.args.msgtype (builtSize s) ck (argTs s)

/-- The checksum of BUILD (R130, steps 2 to 4): the fold of the zeroed header and the data. -/
def builtChecksum (s : State) : Half :=
  fold ((builtHeader s 0).toList ++ srcBytes s) 0

/-- The whole packet of BUILD (R130, step 5): the data is the snapshot read before any write (R53). -/
def builtPacket (s : State) : List Byte :=
  (builtHeader s (builtChecksum s)).toList ++ srcBytes s

/-- The RES registers after BUILD: the header it wrote (R130). -/
def builtRes (s : State) : ResRegs :=
  resOf { sync := syncTriplet, msgtype := s.args.msgtype, pktsize := builtSize s, checksum := builtChecksum s,
          ts := argTs s }

/-- BUILD (R130): LENGTH, then the source, then the destination are checked. -/
def execBuild (s : State) : Host.Outcome State Fault Refusal :=
  if maxPayload < srcLen s then raise Instr.build.opcode .lengthError s.args.len s
  else if ¬ InBounds s (srcAddr s) (srcLen s) then raise Instr.build.opcode .boundsError s.args.src s
  else if ¬ InBounds s (dstAddr s) (16 + srcLen s) then raise Instr.build.opcode .boundsError s.args.dst s
  else finish Instr.build.opcode
    (((s.setMem (Memory.writeBytes s.mem (dstAddr s) (builtPacket s))).setAcc (builtChecksum s)).setRes (builtRes s))

end Sys2Proof.Machine
end

