-- ==== Sys2Proof/Machine/Checksum.lean ====
section
/-! DEFINITION. The XOR checksum accumulator: CSUM and CSUMC (spec 41_checksum.md). -/

namespace Sys2Proof.Machine

/-- What CSUM and CSUMC share: fold the source range into ACC from a seed (R120, R121). -/
def checksumFrom (op : Byte) (seed : Half) (s : State) : Host.Outcome State Fault Refusal :=
  if ¬ InBounds s (srcAddr s) (srcLen s) then raise op .boundsError s.args.src s
  else finish op (s.setAcc (fold (srcBytes s) seed))

/-- CSUM (R120): the seed is ARG_SEED. -/
def execCsum (s : State) : Host.Outcome State Fault Refusal :=
  checksumFrom Instr.csum.opcode s.args.seed s

/-- CSUMC (R121): the seed is ACC. -/
def execCsumc (s : State) : Host.Outcome State Fault Refusal :=
  checksumFrom Instr.csumc.opcode s.acc s

end Sys2Proof.Machine
end

