-- ==== Sys2Proof/Machine/HeaderCodec.lean ====
section
/-! DEFINITION. The header serializer/deserializer: PACK and UNPACK (spec 40_header_codec.md). -/

namespace Sys2Proof.Machine

/-- PACK (R100). -/
def execPack (s : State) : Host.Outcome State Fault Refusal :=
  if ¬ InBounds s (dstAddr s) 16 then raise Instr.pack.opcode .boundsError s.args.dst s
  else
    let h := packHeader s.args.msgtype s.args.pktsize s.args.checksum (argTs s)
    finish Instr.pack.opcode (s.setMem (Memory.writeBytes s.mem (dstAddr s) h.toList))

/-- UNPACK (R101): the length check comes first; neither sync nor pktsize is checked. -/
def execUnpack (s : State) : Host.Outcome State Fault Refusal :=
  if s.args.len ≠ 16 then raise Instr.unpack.opcode .headerSizeError s.args.len s
  else if ¬ InBounds s (srcAddr s) 16 then raise Instr.unpack.opcode .boundsError s.args.src s
  else finish Instr.unpack.opcode (s.setRes (resOf (unpackHeader (srcHeader s))))

end Sys2Proof.Machine
end

