-- ==== Sys2Proof/Machine/Parser.lean ====
section
/-! DEFINITION. The packet-parser state machine: PARSE, VALIDATE and RELEASE (spec 43_parser.md). -/

namespace Sys2Proof.Machine

/-- The slot a successful PARSE leaves (R142): the header's fields, and the header with its checksum field forced to
zero. -/
def parsedSlot (h : Header) : Slot :=
  { state := .headerParsed
    msgtype := h.msgtype
    pktsize := h.pktsize
    checksum := h.checksum
    ts := h.ts
    datasize := h.pktsize - 16
    pbase := 0
    plen := 0
    hdrbuf := packHeader h.msgtype h.pktsize 0 h.ts }

/-- PARSE k (R142). Discard(k) runs before every check, so each error leaves the slot EMPTY. -/
def execParse (k : Fin 16) (s : State) : Host.Outcome State Fault Refusal :=
  let op := (Instr.parse k).opcode
  let d := discardSlot k s
  let h := unpackHeader (srcHeader d)
  if d.args.len ≠ 16 then raise op .headerSizeError d.args.len d
  else if ¬ InBounds d (srcAddr d) 16 then raise op .boundsError d.args.src d
  else if h.sync ≠ syncTriplet then raise op .syncError (h.sync.setWidth 32) d
  else if h.pktsize < 16 then raise op .pktsizeError (h.pktsize.setWidth 32) d
  else finish op (d.setSlot k (parsedSlot h))

/-- The checksum VALIDATE recomputes: over the stored zeroed header, then over the payload (R150). -/
def recomputed (k : Fin 16) (s : State) : Half :=
  fold (srcBytes s) (fold (s.slot k).hdrbuf.toList 0)

/-- The slot after a VALIDATE whose checksum differs (R150). -/
def failedSlot (p : Slot) : Slot := { p with state := .failed }

/-- The slot after a VALIDATE whose checksum is equal: the payload is held by reference (R38, R150). -/
def validatedSlot (p : Slot) (src len : Word) : Slot := { p with state := .validated, pbase := src, plen := len }

/-- VALIDATE k (R150). ACC is written in both outcomes; ARG_LEN is not compared with datasize. -/
def execValidate (k : Fin 16) (s : State) : Host.Outcome State Fault Refusal :=
  let op := (Instr.validate k).opcode
  let p := s.slot k
  let c := recomputed k s
  if p.state ≠ .headerParsed then raise op .stateError ((slotStateBits p.state).setWidth 32) s
  else if ¬ InBounds s (srcAddr s) (srcLen s) then raise op .boundsError s.args.src s
  else if c ≠ p.checksum then raise op .checksumError (c.setWidth 32) ((s.setAcc c).setSlot k (failedSlot p))
  else finish op ((s.setAcc c).setSlot k (validatedSlot p s.args.src s.args.len))

/-- RELEASE k (R155): never fails. -/
def execRelease (k : Fin 16) (s : State) : Host.Outcome State Fault Refusal :=
  finish (Instr.release k).opcode (discardSlot k s)

end Sys2Proof.Machine
end

