-- ==== Sys2Proof/Machine/Dispatch.lean ====
section
/-! DEFINITION. One arm for each command of spec/opcode_table.json. -/

namespace Sys2Proof.Machine

def exec (i : Instr) (s : State) : Host.Outcome State Fault Refusal :=
  match i with
  | .pack => Sys2Proof.Machine.execPack s
  | .unpack => Sys2Proof.Machine.execUnpack s
  | .csum => Sys2Proof.Machine.execCsum s
  | .csumc => Sys2Proof.Machine.execCsumc s
  | .build => Sys2Proof.Machine.execBuild s
  | .parse k => Sys2Proof.Machine.execParse k s
  | .validate k => Sys2Proof.Machine.execValidate k s
  | .release k => Sys2Proof.Machine.execRelease k s

end Sys2Proof.Machine
end

