-- ==== Sys2Proof/Machine/Registers.lean ====
section
/-! DEFINITION. The register space: the map of spec 10_state.md R19, and what a host read or write of a register does
(R34, R40, R42). -/

namespace Sys2Proof.Machine

/-- The registers of a slot's window (R19, R35). -/
inductive SlotReg where
  | state | msgtype | pktsize | checksum | tsHi | tsLo | datasize | pbase | plen
  deriving DecidableEq, Repr

/-- The registers of R19 by name. -/
inductive Reg where
  | cmd | status | errinfo | acc
  | argMsgtype | argPktsize | argChecksum | argSeed | argTsHi | argTsLo | argSrc | argLen | argDst
  | resSync | resMsgtype | resPktsize | resChecksum | resTsHi | resTsLo
  | cfgId | cfgNumSlots | cfgMemLast
  | slot (k : Nat) (r : SlotReg)
  deriving DecidableEq, Repr

/-- The place of a register inside its slot's window (R19). -/
def slotRegOffset (r : SlotReg) : Nat :=
  match r with
  | .state => 0x00
  | .msgtype => 0x04
  | .pktsize => 0x08
  | .checksum => 0x0C
  | .tsHi => 0x10
  | .tsLo => 0x14
  | .datasize => 0x18
  | .pbase => 0x1C
  | .plen => 0x20

/-- The offset of a register (R19); slot windows start at 0x100 and are 0x40 apart. -/
def regOffset (r : Reg) : Nat :=
  match r with
  | .cmd => 0x000
  | .status => 0x004
  | .errinfo => 0x008
  | .acc => 0x00C
  | .argMsgtype => 0x010
  | .argPktsize => 0x014
  | .argChecksum => 0x018
  | .argSeed => 0x01C
  | .argTsHi => 0x020
  | .argTsLo => 0x024
  | .argSrc => 0x028
  | .argLen => 0x02C
  | .argDst => 0x030
  | .resSync => 0x040
  | .resMsgtype => 0x044
  | .resPktsize => 0x048
  | .resChecksum => 0x04C
  | .resTsHi => 0x050
  | .resTsLo => 0x054
  | .cfgId => 0x080
  | .cfgNumSlots => 0x084
  | .cfgMemLast => 0x088
  | .slot k r => 0x100 + 0x40 * k + slotRegOffset r

/-- The register at a place inside a slot window; the other places are unmapped (R19, R42). -/
def slotRegAt (place : Nat) : Option SlotReg :=
  match place with
  | 0x00 => some .state
  | 0x04 => some .msgtype
  | 0x08 => some .pktsize
  | 0x0C => some .checksum
  | 0x10 => some .tsHi
  | 0x14 => some .tsLo
  | 0x18 => some .datasize
  | 0x1C => some .pbase
  | 0x20 => some .plen
  | _ => none

/-- The register at an offset of 0x100 or more: a slot window exists for slots below NUM_SLOTS only (R19, R42). -/
def slotWindowAt (numSlots off : Nat) : Option Reg :=
  if 0x100 ≤ off ∧ (off - 0x100) / 0x40 < numSlots then
    (slotRegAt ((off - 0x100) % 0x40)).map (Reg.slot ((off - 0x100) / 0x40))
  else none

/-- The register at an offset, or none where the offset is unmapped (R19, R42). -/
def regAt (numSlots : Nat) (off : BitVec 12) : Option Reg :=
  match off.toNat with
  | 0x000 => some .cmd
  | 0x004 => some .status
  | 0x008 => some .errinfo
  | 0x00C => some .acc
  | 0x010 => some .argMsgtype
  | 0x014 => some .argPktsize
  | 0x018 => some .argChecksum
  | 0x01C => some .argSeed
  | 0x020 => some .argTsHi
  | 0x024 => some .argTsLo
  | 0x028 => some .argSrc
  | 0x02C => some .argLen
  | 0x030 => some .argDst
  | 0x040 => some .resSync
  | 0x044 => some .resMsgtype
  | 0x048 => some .resPktsize
  | 0x04C => some .resChecksum
  | 0x050 => some .resTsHi
  | 0x054 => some .resTsLo
  | 0x080 => some .cfgId
  | 0x084 => some .cfgNumSlots
  | 0x088 => some .cfgMemLast
  | o => slotWindowAt numSlots o

/-- The value of a slot register, zero-extended (R36 to R38, R40). hdrbuf has no register (R39). -/
def readSlotReg (p : Slot) (r : SlotReg) : Word :=
  match r with
  | .state => (slotStateBits p.state).setWidth 32
  | .msgtype => p.msgtype.setWidth 32
  | .pktsize => p.pktsize.setWidth 32
  | .checksum => p.checksum.setWidth 32
  | .tsHi => stampHi p.ts
  | .tsLo => stampLo p.ts
  | .datasize => p.datasize.setWidth 32
  | .pbase => p.pbase
  | .plen => p.plen

/-- The value a host read of a register returns: the register zero-extended to 32 bits (R40). CMD reads 0 (R20). The
configuration registers are constant (R34). -/
def readReg (s : State) (r : Reg) : Word :=
  match r with
  | .cmd => 0
  | .status => s.status.setWidth 32
  | .errinfo => s.errinfo
  | .acc => s.acc.setWidth 32
  | .argMsgtype => s.args.msgtype.setWidth 32
  | .argPktsize => s.args.pktsize.setWidth 32
  | .argChecksum => s.args.checksum.setWidth 32
  | .argSeed => s.args.seed.setWidth 32
  | .argTsHi => s.args.tsHi
  | .argTsLo => s.args.tsLo
  | .argSrc => s.args.src
  | .argLen => s.args.len
  | .argDst => s.args.dst
  | .resSync => s.res.sync.setWidth 32
  | .resMsgtype => s.res.msgtype.setWidth 32
  | .resPktsize => s.res.pktsize.setWidth 32
  | .resChecksum => s.res.checksum.setWidth 32
  | .resTsHi => s.res.tsHi
  | .resTsLo => s.res.tsLo
  | .cfgId => 0x50430001
  | .cfgNumSlots => (BitVec.ofNat 5 s.cfg.numSlots).setWidth 32
  | .cfgMemLast => BitVec.ofNat 32 (s.cfg.memSize - 1)
  | .slot k r => readSlotReg (s.slot k) r

/-- The value a host read at an offset returns: 0 where it is unmapped (R42). -/
def readOffset (s : State) (off : BitVec 12) : Word :=
  match regAt s.cfg.numSlots off with
  | some r => readReg s r
  | none => 0

/-- A host write of a value to a register other than CMD (R40): an RW register of width w stores `v[w-1:0]`; a write to
any other register changes nothing. What a write to CMD does is `command`'s. -/
def writeReg (r : Reg) (v : Word) (s : State) : State :=
  match r with
  | .argMsgtype => s.setArgs { s.args with msgtype := v.setWidth 8 }
  | .argPktsize => s.setArgs { s.args with pktsize := v.setWidth 16 }
  | .argChecksum => s.setArgs { s.args with checksum := v.setWidth 16 }
  | .argSeed => s.setArgs { s.args with seed := v.setWidth 16 }
  | .argTsHi => s.setArgs { s.args with tsHi := v }
  | .argTsLo => s.setArgs { s.args with tsLo := v }
  | .argSrc => s.setArgs { s.args with src := v }
  | .argLen => s.setArgs { s.args with len := v }
  | .argDst => s.setArgs { s.args with dst := v }
  | .cmd | .status | .errinfo | .acc => s
  | .resSync | .resMsgtype | .resPktsize | .resChecksum | .resTsHi | .resTsLo => s
  | .cfgId | .cfgNumSlots | .cfgMemLast => s
  | .slot _ _ => s

end Sys2Proof.Machine
end

