-- ==== Sys2Proof/Machine/HostPort.lean ====
section
/-! DEFINITION. The four actions of the host (spec 10_state.md R16, R20, R41; 70_reset_and_hazards.md R244). -/

namespace Sys2Proof.Machine

/-- A write of the word `w` to CMD (R20): the command it encodes runs to completion in this step. A word that Decode
rejects raises ILLEGAL_COMMAND(w), with LASTOP = w[7:0] and no other effect (R60, R64). -/
def command (w : Word) (s : State) : Host.Outcome State Fault Refusal :=
  match decode s.cfg.numSlots w with
  | .ok i => exec i s
  | .error _ => raise (opcField w) .illegalCommand w s

/-- A register write that the interface takes: to CMD it runs a command, to another register it stores, at an unmapped
offset it is ignored (R20, R40, R42). -/
def writeOffset (off : BitVec 12) (v : Word) (s : State) : Host.Outcome State Fault Refusal :=
  match regAt s.cfg.numSlots off with
  | some .cmd => command v s
  | some r => .next (writeReg r v s)
  | none => .next s

/-- A register access of another size than 4 bytes, or at an offset that is not a multiple of 4, is refused (R41); the
size is looked at first (log entry 6). -/
def registerAccess (size : Nat) (off : BitVec 12) (k : Host.Outcome State Fault Refusal) :
    Host.Outcome State Fault Refusal :=
  if size ≠ 4 then .refused .registerAccessNotWord
  else if off.toNat % 4 ≠ 0 then .refused .registerAccessUnaligned
  else k

/-- One host step (R16, R244). A register read returns a word and a MEM byte read a byte, both without a side effect
(R40, R54); a write returns nothing. A host MEM access at an address >= MEM_SIZE is refused (R244). -/
def hostStep (h : HostStep) (s : State) : Host.Outcome State Fault Refusal :=
  match h with
  | .regRead size off => registerAccess size off (.next (s.setReply (some (.word (readOffset s off)))))
  | .regWrite size off v => registerAccess size off (writeOffset off v (s.setReply none))
  | .memRead a =>
    if InBounds s a 1 then .next (s.setReply (some (.byte (Memory.read s.mem a))))
    else .refused .memAddressOutside
  | .memWrite a b =>
    if InBounds s a 1 then .next ((s.setReply none).setMem (Memory.write s.mem a b))
    else .refused .memAddressOutside

end Sys2Proof.Machine
end

