-- ==== Sys2Proof/Machine/Step.lean ====
section
/-! DEFINITION. One step of the machine: the next host step of the host program (spec 10_state.md R16, R43;
70_reset_and_hazards.md R243). -/

namespace Sys2Proof.Machine

/-- The machine performs the first host step still to be performed. The block has no autonomous step (R16): when the
host program is over, it is idle and keeps all its state (R214, R243; log entry 4). -/
def step (s : State) : Host.Outcome State Fault Refusal :=
  match s.host with
  | [] => .next s
  | h :: rest => hostStep h (s.setHost rest)

/-- `s` with the command word `w` about to be delivered. A command word is never fetched from MEM: "A write to CMD is
the only way a command is delivered" (R43, R59). So the word stands as a 32-bit write to CMD at the head of the host
program, and the next step runs it. Every bit at or above `nbits` is 0. -/
def State.withFetchWord (s : State) (nbits w : Nat) : State :=
  s.setHost (HostStep.regWrite 4 0 (BitVec.ofNat 32 (w % 2 ^ nbits)) :: s.host)

end Sys2Proof.Machine
end

