-- ==== Sys2Proof/Machine/HostProgram.lean ====
section
/-! DEFINITION. The host program syntax (spec 30_encoding.md R69 to R71). It is notation only: each line is the list of
host steps it stands for, and the machine performs them one by one. -/

namespace Sys2Proof.Machine.HostProgram

/-- `wr NAME, v` (R69). -/
def wr (r : Reg) (v : Word) : List HostStep := [.regWrite 4 (BitVec.ofNat 12 (regOffset r)) v]

/-- `rd NAME` (R69). -/
def rd (r : Reg) : List HostStep := [.regRead 4 (BitVec.ofNat 12 (regOffset r))]

/-- `mw addr, b0 b1 ... bk`: one step per byte, in order (R69). -/
def mw (addr : Nat) (bytes : List Byte) : List HostStep :=
  match bytes with
  | [] => []
  | b :: rest => .memWrite addr b :: mw (addr + 1) rest

/-- `mr addr, n`: n consecutive MEM byte reads (R69). -/
def mr (addr n : Nat) : List HostStep :=
  match n with
  | 0 => []
  | k + 1 => .memRead addr :: mr (addr + 1) k

/-- A command mnemonic stands for `wr CMD, w` with its word (R70). -/
def cmd (i : Instr) : List HostStep := wr .cmd (encode i)

/-- `ts64 ARG_TS, t` (R71). -/
def ts64 (t : Stamp) : List HostStep := wr .argTsHi (stampHi t) ++ wr .argTsLo (stampLo t)

/-- `pack dst, mt, ps, ck, t` (R71). -/
def pack (dst mt ps ck : Word) (t : Stamp) : List HostStep :=
  wr .argDst dst ++ wr .argMsgtype mt ++ wr .argPktsize ps ++ wr .argChecksum ck ++ ts64 t ++ cmd .pack

/-- `unpack src` (R71). -/
def unpack (src : Word) : List HostStep := wr .argSrc src ++ wr .argLen 16 ++ cmd .unpack

/-- `checksum src, n, seed` (R71). -/
def checksum (src n seed : Word) : List HostStep :=
  wr .argSrc src ++ wr .argLen n ++ wr .argSeed seed ++ cmd .csum

/-- `checksumc src, n` (R71). -/
def checksumc (src n : Word) : List HostStep := wr .argSrc src ++ wr .argLen n ++ cmd .csumc

/-- `build mt, t, src, n, dst` (R71). -/
def build (mt : Word) (t : Stamp) (src n dst : Word) : List HostStep :=
  wr .argMsgtype mt ++ ts64 t ++ wr .argSrc src ++ wr .argLen n ++ wr .argDst dst ++ cmd .build

/-- `parse s, src` (R71). -/
def parse (k : Fin 16) (src : Word) : List HostStep := wr .argSrc src ++ wr .argLen 16 ++ cmd (.parse k)

/-- `validate s, src, n` (R71). -/
def validate (k : Fin 16) (src n : Word) : List HostStep := wr .argSrc src ++ wr .argLen n ++ cmd (.validate k)

end Sys2Proof.Machine.HostProgram
end

