-- ==== Sys2Proof/Safety.lean ====
section
/-! DEFINITION. What counts as a good state and a good run: the invariant of the machine, the host steps inside the
interface, and the views of memory the statements use. -/

namespace Sys2Proof.Machine

/-- What every slot of a reachable state satisfies: an EMPTY slot carries no parser data (R36, R37, R141); any other slot
holds a header with pktsize >= 16, its datasize, and that header with its checksum field zeroed (R37, R39, R142); the
payload reference is zero outside VALIDATED and in bounds in VALIDATED (R38, R150); and a checksum that validated has
its high byte zero (R151). -/
abbrev Slot.inv (memSize : Nat) (p : Slot) : Prop :=
  (p.state = .empty → p = Slot.empty) ∧
  (p.state ≠ .empty →
    16 ≤ p.pktsize.toNat ∧ p.datasize.toNat = p.pktsize.toNat - 16 ∧
    p.hdrbuf = packHeader p.msgtype p.pktsize 0 p.ts) ∧
  (p.state ≠ .validated → p.pbase = 0 ∧ p.plen = 0) ∧
  (p.state = .validated → p.pbase.toNat + p.plen.toNat ≤ memSize ∧ p.checksum.toNat < 256)

/-- What STATUS and ERRINFO satisfy: bits 7:6 read 0 (R21), the codes 9..15 are never written, CLASS is the class of
CODE (R201, R202), and ERRINFO is 0 after success (R23). -/
abbrev statusInv (st : Half) (info : Word) : Prop :=
  zeroField st = 0 ∧
  ((codeField st = 0 ∧ classField st = 0 ∧ info = 0) ∨
   ((codeField st = 1 ∨ codeField st = 2 ∨ codeField st = 4) ∧ classField st = 1) ∨
   (codeField st = 3 ∧ classField st = 2) ∨
   ((codeField st = 5 ∨ codeField st = 6 ∨ codeField st = 7 ∨ codeField st = 8) ∧ classField st = 3))

/-- MEM as data: the canonical form, and no byte at or above MEM_SIZE (R45). -/
abbrev memInv (memSize : Nat) (m : Memory) : Prop := Memory.wf m ∧ ∀ c ∈ m, c.1 < memSize

/-- The invariant of the machine. -/
abbrev State.inv (s : State) : Prop :=
  s.cfg.wf ∧ s.slots.length = s.cfg.numSlots ∧ (∀ p ∈ s.slots, p.inv s.cfg.memSize) ∧
  memInv s.cfg.memSize s.mem ∧ statusInv s.status s.errinfo

/-- A host step inside the interface: an aligned 32-bit register access (R41), or a MEM access below MEM_SIZE (R244). -/
abbrev HostStep.accepted (memSize : Nat) (h : HostStep) : Prop :=
  match h with
  | .regRead size off => size = 4 ∧ off.toNat % 4 = 0
  | .regWrite size off _ => size = 4 ∧ off.toNat % 4 = 0
  | .memRead a => a < memSize
  | .memWrite a _ => a < memSize

/-- A state whose whole host program stays inside the interface: a run from it is safe, it never stops. -/
abbrev State.safe (s : State) : Prop := ∀ h ∈ s.host, h.accepted s.cfg.memSize

/-- Two memories read alike on the `n` bytes from `a`. -/
def sameBytes (m m' : Memory) (a n : Nat) : Prop :=
  ∀ x, a ≤ x → x < a + n → Memory.read m' x = Memory.read m x

/-- Two memories read alike everywhere but on the `n` bytes from `a`. -/
def sameOutside (m m' : Memory) (a n : Nat) : Prop :=
  ∀ x, x < a ∨ a + n ≤ x → Memory.read m' x = Memory.read m x

/-- The wire layout of R72, byte by byte: offset 0 first, every field most significant byte first, the timestamp
given by its two 32-bit halves. Written with shifts, apart from PackHeader, so that statements compare the two. -/
def wireBytes (mt : Byte) (ps ck : Half) (hi lo : Word) : List Byte :=
  [0xA3, 0x9D, 0x7A, mt,
   (ps >>> 8).setWidth 8, ps.setWidth 8, (ck >>> 8).setWidth 8, ck.setWidth 8,
   (hi >>> 24).setWidth 8, (hi >>> 16).setWidth 8, (hi >>> 8).setWidth 8, hi.setWidth 8,
   (lo >>> 24).setWidth 8, (lo >>> 16).setWidth 8, (lo >>> 8).setWidth 8, lo.setWidth 8]

/-- The XOR of the bytes of a sequence, with the empty XOR equal to 0 (R122(b)). -/
def xorBytes (l : List Byte) : Byte := l.foldr (fun b acc => b ^^^ acc) 0

/-- The MEM range a command reads once its checks pass (R51): base and number of bytes. -/
def readRange (i : Instr) (s : State) : Nat × Nat :=
  match i with
  | .pack => (0, 0)
  | .unpack => (srcAddr s, 16)
  | .csum => (srcAddr s, srcLen s)
  | .csumc => (srcAddr s, srcLen s)
  | .build => (srcAddr s, srcLen s)
  | .parse _ => (srcAddr s, 16)
  | .validate _ => (srcAddr s, srcLen s)
  | .release _ => (0, 0)

/-- The MEM range a command writes once its checks pass (R51): base and number of bytes. -/
def writeRange (i : Instr) (s : State) : Nat × Nat :=
  match i with
  | .pack => (dstAddr s, 16)
  | .build => (dstAddr s, 16 + srcLen s)
  | .unpack | .csum | .csumc | .parse _ | .validate _ | .release _ => (0, 0)

end Sys2Proof.Machine
end

