-- ==== Sys2Proof/Certificates/Slice0/Obligations.lean ====
section
/-! DEFINITION. The statements for the provers. Each says which rules of spec/ it formalises. STATUS values are written as
the whole register, CODE | CLASS<<4 | LASTOP<<8 (R21): 0x0137 is LASTOP 0x01, CLASS 3, CODE 7. -/

open Sys2Proof Sys2Proof.Machine

/-! ## Reset and configuration -/

/-- R230: after reset every register reads its reset column, the configuration registers read the parameters, and every
slot s < NUM_SLOTS holds the empty value, hdrbuf included. For every NUM_SLOTS, MEM_SIZE and MEM_INIT. -/
def Obligations.ResetReadsTheResetColumn : Prop :=
  ∀ (cfg : Config) (m : Memory), cfg.wf →
    (∀ off : BitVec 12, readOffset (State.resetWith cfg m) off =
      if off = 0x080 then 0x50430001
      else if off = 0x084 then BitVec.ofNat 32 cfg.numSlots
      else if off = 0x088 then BitVec.ofNat 32 (cfg.memSize - 1)
      else 0) ∧
    (State.resetWith cfg m).slots.length = cfg.numSlots ∧
    (∀ p ∈ (State.resetWith cfg m).slots,
      p.state = .empty ∧ p.msgtype = 0 ∧ p.pktsize = 0 ∧ p.checksum = 0 ∧ p.ts = 0 ∧ p.datasize = 0 ∧
      p.pbase = 0 ∧ p.plen = 0 ∧ p.hdrbuf.toList = List.replicate 16 0)

/-- The invariant holds right after reset, for every legal configuration and every MEM_INIT in canonical form, and so of
State.reset (whose configuration and MEM_INIT are the model's choice, log entries 1 and 2). -/
def Obligations.ResetMeetsTheInvariant : Prop :=
  (∀ (cfg : Config) (m : Memory), cfg.wf → memInv cfg.memSize m → (State.resetWith cfg m).inv) ∧ State.reset.inv

/-- Every step keeps the invariant: legal configuration (R7, R8), NUM_SLOTS slots each in a legal shape (R36 to R39, R142,
R150, R151), no MEM byte at or above MEM_SIZE (R45), STATUS and ERRINFO legal (R21, R23, R201). That the list holding MEM
is in canonical form is the model's own data shape, and that all this is an invariant and not part of the types is the
model's choice (log entries 1 and 16). -/
def Obligations.EveryStepKeepsTheInvariant : Prop :=
  ∀ s t : State, s.inv → step s = .next t → t.inv

/-- R34: the configuration registers are constant: they read the parameters, no step changes what they read, and writes
to them are ignored. -/
def Obligations.ConfigurationRegistersAreConstant : Prop :=
  (∀ s : State, s.cfg.wf →
    readOffset s 0x080 = 0x50430001 ∧ (readOffset s 0x084).toNat = s.cfg.numSlots ∧
    (readOffset s 0x088).toNat = s.cfg.memSize - 1) ∧
  (∀ s t : State, step s = .next t → t.cfg = s.cfg ∧
    ∀ off : BitVec 12, off = 0x080 ∨ off = 0x084 ∨ off = 0x088 → readOffset t off = readOffset s off) ∧
  (∀ (s : State) (off : BitVec 12) (v : Word) (rest : List HostStep), off = 0x080 ∨ off = 0x084 ∨ off = 0x088 →
    s.host = .regWrite 4 off v :: rest → step s = .next { s with host := rest, reply := none })

/-! ## The register interface -/

/-- R19: what a read of each mapped offset returns, slot windows included (P_STATE as R36 encodes it). -/
def Obligations.MappedOffsetsReadTheirRegisters : Prop :=
  ∀ s : State,
    (∀ r ∈ ([(0x000, 0), (0x004, s.status.setWidth 32), (0x008, s.errinfo), (0x00C, s.acc.setWidth 32),
        (0x010, s.args.msgtype.setWidth 32), (0x014, s.args.pktsize.setWidth 32),
        (0x018, s.args.checksum.setWidth 32), (0x01C, s.args.seed.setWidth 32),
        (0x020, s.args.tsHi), (0x024, s.args.tsLo), (0x028, s.args.src), (0x02C, s.args.len), (0x030, s.args.dst),
        (0x040, s.res.sync.setWidth 32), (0x044, s.res.msgtype.setWidth 32), (0x048, s.res.pktsize.setWidth 32),
        (0x04C, s.res.checksum.setWidth 32), (0x050, s.res.tsHi), (0x054, s.res.tsLo)] : List (BitVec 12 × Word)),
      readOffset s r.1 = r.2) ∧
    (∀ (k : Nat) (p : Slot), k < 16 → k < s.cfg.numSlots → s.slots[k]? = some p →
      ∀ r ∈ ([(0x00, if p.state = .empty then 0 else if p.state = .headerParsed then 1
                     else if p.state = .validated then 2 else 3),
          (0x04, p.msgtype.setWidth 32), (0x08, p.pktsize.setWidth 32), (0x0C, p.checksum.setWidth 32),
          (0x10, (p.ts >>> 32).setWidth 32), (0x14, p.ts.setWidth 32), (0x18, p.datasize.setWidth 32),
          (0x1C, p.pbase), (0x20, p.plen)] : List (Nat × Word)),
        readOffset s (BitVec.ofNat 12 (0x100 + 0x40 * k + r.1)) = r.2)

/-- R42: every offset that R19 does not list, and every slot window with s >= NUM_SLOTS, reads 0 and ignores writes. -/
def Obligations.UnmappedOffsetsReadZeroAndIgnoreWrites : Prop :=
  ∀ (s : State) (off : BitVec 12) (rest : List HostStep),
    off ∉ ([0x000, 0x004, 0x008, 0x00C, 0x010, 0x014, 0x018, 0x01C, 0x020, 0x024, 0x028, 0x02C, 0x030,
            0x040, 0x044, 0x048, 0x04C, 0x050, 0x054, 0x080, 0x084, 0x088] : List (BitVec 12)) →
    (∀ k < s.cfg.numSlots, ∀ j ≤ 8, off.toNat ≠ 0x100 + 0x40 * k + 4 * j) → off.toNat % 4 = 0 →
    (s.host = .regRead 4 off :: rest → step s = .next { s with host := rest, reply := some (.word 0) }) ∧
    (∀ v, s.host = .regWrite 4 off v :: rest → step s = .next { s with host := rest, reply := none })

/-- R40: a host read returns the register's value and has no side effect; a write to an RW register of width w stores
v[w-1:0], so that a later read returns those bits with zeros above them and every other offset reads as before; a write
to any other register than CMD changes nothing. -/
def Obligations.RegisterAccessesFollowTheirAccessKind : Prop :=
  (∀ (s : State) (off : BitVec 12) (rest : List HostStep), off.toNat % 4 = 0 → s.host = .regRead 4 off :: rest →
    step s = .next { s with host := rest, reply := some (.word (readOffset s off)) }) ∧
  (∀ (s : State) (v : Word) (rest : List HostStep),
    ∀ r ∈ ([(0x010, 8), (0x014, 16), (0x018, 16), (0x01C, 16), (0x020, 32), (0x024, 32), (0x028, 32), (0x02C, 32),
            (0x030, 32)] : List (BitVec 12 × Nat)),
      s.host = .regWrite 4 r.1 v :: rest →
      ∃ a, step s = .next { s with args := a, host := rest, reply := none } ∧
        readOffset { s with args := a, host := rest, reply := none } r.1 = (v.setWidth r.2).setWidth 32 ∧
        ∀ off, off ≠ r.1 → readOffset { s with args := a, host := rest, reply := none } off = readOffset s off) ∧
  (∀ (s : State) (off : BitVec 12) (v : Word) (rest : List HostStep), off.toNat % 4 = 0 →
    off ∉ ([0x000, 0x010, 0x014, 0x018, 0x01C, 0x020, 0x024, 0x028, 0x02C, 0x030] : List (BitVec 12)) →
    s.host = .regWrite 4 off v :: rest → step s = .next { s with host := rest, reply := none })

/-- R41 and the last sentence of R244: a register access of another size or at an offset that is no multiple of 4, and a
host MEM access at or above MEM_SIZE, are refused; every other host step is taken. -/
def Obligations.OnlyAccessesOutsideTheInterfaceAreRefused : Prop :=
  ∀ (s : State) (h : HostStep) (rest : List HostStep), s.host = h :: rest →
    ((∃ r, step s = .refused r) ↔ ¬ h.accepted s.cfg.memSize) ∧
    ((∃ t, step s = .next t) ↔ h.accepted s.cfg.memSize)

/-! ## Host steps on MEM -/

/-- R54, R58: a host MEM write stores its byte and does nothing else; a host MEM read returns the byte and changes no
state of the block. -/
def Obligations.HostMemoryAccessesTouchOneByte : Prop :=
  ∀ (s : State) (a : Nat) (rest : List HostStep), a < s.cfg.memSize →
    (∀ b, s.host = .memWrite a b :: rest →
      ∃ m, step s = .next { s with mem := m, host := rest, reply := none } ∧
        Memory.read m a = b ∧ ∀ x, x ≠ a → Memory.read m x = Memory.read s.mem x) ∧
    (s.host = .memRead a :: rest →
      step s = .next { s with host := rest, reply := some (.byte (Memory.read s.mem a)) })

/-- Two memories in canonical form that read alike everywhere are the same data. -/
def Obligations.CanonicalMemoriesThatReadAlikeAreEqual : Prop :=
  ∀ m m' : Memory, m.wf → m'.wf → (∀ a, Memory.read m a = Memory.read m' a) → m = m'

/-! ## The command word -/

/-- R20: a write of w to CMD is, in the same step, the command that w encodes; a read of CMD returns 0 and has no side
effect. So the statements about exec are statements about step. -/
def Obligations.StepRunsTheDecodedCommand : Prop :=
  (∀ (s : State) (w : Word) (i : Instr) (rest : List HostStep), s.host = .regWrite 4 0x000 w :: rest →
    decode s.cfg.numSlots w = .ok i → step s = exec i { s with host := rest, reply := none }) ∧
  (∀ (s : State) (rest : List HostStep), s.host = .regRead 4 0x000 :: rest →
    step s = .next { s with host := rest, reply := some (.word 0) })

/-- R70: the word of each command, written out, decodes to it on every block that has the slot. -/
def Obligations.WrittenOutWordsDecode : Prop :=
  ∀ n : Nat,
    decode n 0x00000001 = .ok .pack ∧ decode n 0x00000002 = .ok .unpack ∧ decode n 0x00000003 = .ok .csum ∧
    decode n 0x00000004 = .ok .csumc ∧ decode n 0x00000005 = .ok .build ∧
    ∀ k : Fin 16, k.val < n →
      decode n (0x00000006 ||| BitVec.ofNat 32 k.val <<< 8) = .ok (.parse k) ∧
      decode n (0x00000007 ||| BitVec.ofNat 32 k.val <<< 8) = .ok (.validate k) ∧
      decode n (0x00000008 ||| BitVec.ofNat 32 k.val <<< 8) = .ok (.release k)

/-- R60 to R63: decoding gives a command exactly when that command exists on the block and the word is its encoding. So
decode of encode is the identity on well-formed commands, and each legal command has exactly one encoding. -/
def Obligations.DecodeAndEncodeAreInverse : Prop :=
  ∀ (n : Nat) (w : Word) (i : Instr), decode n w = .ok i ↔ i.wf n = true ∧ encode i = w

/-- R64: each illegal word executes raise ILLEGAL_COMMAND(w): STATUS with LASTOP = w[7:0], CLASS 3, CODE 8, and ERRINFO =
w, and nothing else. -/
def Obligations.IllegalWordsRaiseAndChangeNothingElse : Prop :=
  ∀ (s : State) (w : Word) (rest : List HostStep), s.host = .regWrite 4 0x000 w :: rest →
    (w.toNat % 256 = 0 ∨ 9 ≤ w.toNat % 256 ∨ 4096 ≤ w.toNat ∨
      (w.toNat % 256 ≤ 5 ∧ w.toNat / 256 % 16 ≠ 0) ∨
      (6 ≤ w.toNat % 256 ∧ s.cfg.numSlots ≤ w.toNat / 256 % 16)) →
    step s = .next { s with host := rest, reply := none, errinfo := w,
                            status := (w.setWidth 8).setWidth 16 <<< 8 ||| 0x0038 }

/-! ## The header codec -/

/-- R72: PackHeader is the wire layout, each field most significant byte first (R46), and UnpackHeader reads each field
back bit for bit, the timestamp included. -/
def Obligations.HeaderBytesAreTheWireLayout : Prop :=
  ∀ (mt : Byte) (ps ck : Half) (hi lo : Word),
    (packHeader mt ps ck (hi ++ lo)).toList = wireBytes mt ps ck hi lo ∧
    unpackHeader (packHeader mt ps ck (hi ++ lo)) =
      { sync := 0xA39D7A, msgtype := mt, pktsize := ps, checksum := ck, ts := hi ++ lo }

/-- R100: PACK writes the 16 header bytes at ARG_DST from the ARG registers, no field checked, and nothing else but
STATUS and ERRINFO; out of bounds it raises BOUNDS_ERROR(ARG_DST) and MEM is not written. -/
def Obligations.PackSerializesTheHeader : Prop :=
  ∀ s : State,
    (dstAddr s + 16 ≤ s.cfg.memSize →
      ∃ m, exec .pack s = .next { s with mem := m, status := 0x0100, errinfo := 0 } ∧
        Memory.readBytes m (dstAddr s) 16 =
          wireBytes s.args.msgtype s.args.pktsize s.args.checksum s.args.tsHi s.args.tsLo ∧
        sameOutside s.mem m (dstAddr s) 16) ∧
    (s.cfg.memSize < dstAddr s + 16 →
      exec .pack s = .next { s with status := 0x0137, errinfo := s.args.dst })

/-- R101: UNPACK reads the 16 bytes at ARG_SRC into the RES registers, sync and pktsize unchecked, and writes nothing
else but STATUS and ERRINFO; HEADER_SIZE_ERROR(ARG_LEN) comes first, then BOUNDS_ERROR(ARG_SRC). -/
def Obligations.UnpackDeserializesTheHeader : Prop :=
  ∀ s : State,
    (s.args.len ≠ 16 → exec .unpack s = .next { s with status := 0x0211, errinfo := s.args.len }) ∧
    (s.args.len = 16 → s.cfg.memSize < srcAddr s + 16 →
      exec .unpack s = .next { s with status := 0x0237, errinfo := s.args.src }) ∧
    (s.args.len = 16 → srcAddr s + 16 ≤ s.cfg.memSize →
      let b := fun i => Memory.read s.mem (srcAddr s + i)
      exec .unpack s = .next { s with
        status := 0x0200, errinfo := 0
        res := { sync := b 0 ++ b 1 ++ b 2, msgtype := b 3, pktsize := b 4 ++ b 5, checksum := b 6 ++ b 7,
                 tsHi := b 8 ++ b 9 ++ b 10 ++ b 11, tsLo := b 12 ++ b 13 ++ b 14 ++ b 15 } })

/-- R102: UNPACK of what PACK wrote gives the operands back, bit for bit, in every state u whose MEM still holds those 16
bytes; and PackHeader of UnpackHeader gives back any header with a right sync. -/
def Obligations.PackThenUnpackRoundTrips : Prop :=
  (∀ s : State, dstAddr s + 16 ≤ s.cfg.memSize → ∃ t, exec .pack s = .next t ∧
    ∀ u : State, u.cfg = s.cfg → sameBytes t.mem u.mem (dstAddr s) 16 → u.args.src = s.args.dst → u.args.len = 16 →
      exec .unpack u = .next { u with
        status := 0x0200, errinfo := 0
        res := { sync := 0xA39D7A, msgtype := s.args.msgtype, pktsize := s.args.pktsize,
                 checksum := s.args.checksum, tsHi := s.args.tsHi, tsLo := s.args.tsLo } }) ∧
  (∀ h : Vector Byte 16, h[0] = 0xA3 → h[1] = 0x9D → h[2] = 0x7A →
    packHeader (unpackHeader h).msgtype (unpackHeader h).pktsize (unpackHeader h).checksum (unpackHeader h).ts = h)

/-! ## The checksum accumulator -/

/-- R120: CSUM sets ACC to the fold of (ARG_SRC, ARG_LEN) from ARG_SEED and writes nothing else but STATUS and ERRINFO;
out of bounds it raises BOUNDS_ERROR(ARG_SRC) and ACC is unchanged. -/
def Obligations.CsumFoldsFromTheSeed : Prop :=
  ∀ s : State,
    (srcAddr s + srcLen s ≤ s.cfg.memSize →
      exec .csum s = .next { s with
        acc := fold (Memory.readBytes s.mem (srcAddr s) (srcLen s)) s.args.seed, status := 0x0300, errinfo := 0 }) ∧
    (s.cfg.memSize < srcAddr s + srcLen s →
      exec .csum s = .next { s with status := 0x0337, errinfo := s.args.src })

/-- R121: CSUMC is the same from ACC. -/
def Obligations.CsumcFoldsFromTheAccumulator : Prop :=
  ∀ s : State,
    (srcAddr s + srcLen s ≤ s.cfg.memSize →
      exec .csumc s = .next { s with
        acc := fold (Memory.readBytes s.mem (srcAddr s) (srcLen s)) s.acc, status := 0x0400, errinfo := 0 }) ∧
    (s.cfg.memSize < srcAddr s + srcLen s →
      exec .csumc s = .next { s with status := 0x0437, errinfo := s.args.src })

/-- R122: (a) chaining, (b) the closed form, (c) order insensitivity, (d) the high byte, (e) single-bit sensitivity, (f)
the blind spots. -/
def Obligations.FoldObeysItsLaws : Prop :=
  ∀ (A B C : List Byte) (s : Half) (x : Byte),
    fold (A ++ B) s = fold B (fold A s) ∧
    fold A s = s ^^^ (xorBytes A).setWidth 16 ∧
    (∀ A', A.Perm A' → fold A' s = fold A s) ∧
    (fold A s >>> 8 = s >>> 8 ∧ (fold A 0).toNat ≤ 0x00FF) ∧
    (∀ i < A.length, ∀ k < 8, fold (A.set i (A.getD i 0 ^^^ 1#8 <<< k)) s = fold A s ^^^ 1#16 <<< k ∧
      fold (A.set i (A.getD i 0 ^^^ 1#8 <<< k)) s ≠ fold A s) ∧
    ((∀ i < A.length, ∀ j < A.length, i ≠ j → ∀ k < 8,
        fold ((A.set i (A.getD i 0 ^^^ 1#8 <<< k)).set j (A.getD j 0 ^^^ 1#8 <<< k)) s = fold A s) ∧
      fold (A ++ x :: B ++ x :: C) s = fold (A ++ B ++ C) s ∧
      fold (A ++ 0 :: B) s = fold (A ++ B) s)

/-- R121 and R122(a) on the machine: CSUM over the first n bytes and then CSUMC over the next m gives the ACC of one CSUM
over all n + m, for every split. -/
def Obligations.SplitChecksumEqualsWholeChecksum : Prop :=
  ∀ (s : State) (n m : Nat), s.cfg.wf → srcAddr s + (n + m) ≤ s.cfg.memSize → n + m < 2 ^ 32 →
    ∃ t u w,
      exec .csum { s with args := { s.args with len := BitVec.ofNat 32 n } } = .next t ∧
      exec .csumc { t with args := { t.args with src := s.args.src + BitVec.ofNat 32 n, len := BitVec.ofNat 32 m } } =
        .next u ∧
      exec .csum { s with args := { s.args with len := BitVec.ofNat 32 (n + m) } } = .next w ∧
      u.acc = w.acc ∧ u.mem = s.mem ∧ w.mem = s.mem

/-! ## The packet builder -/

/-- R130: BUILD writes the header with pktsize = 16 + ARG_LEN and the real checksum, followed by the data, at ARG_DST; the
data are the bytes MEM held before the command, whatever the overlap (R53). ACC and RES show the header written, and
nothing else changes but STATUS and ERRINFO. The errors are checked in the order LENGTH, source, destination. -/
def Obligations.BuildAssemblesThePacket : Prop :=
  ∀ s : State,
    let src := srcAddr s
    let n := srcLen s
    let dst := dstAddr s
    let ps := BitVec.ofNat 16 (16 + n)
    let data := Memory.readBytes s.mem src n
    let c := fold (wireBytes s.args.msgtype ps 0 s.args.tsHi s.args.tsLo ++ data) 0
    (65519 < n → exec .build s = .next { s with status := 0x0535, errinfo := s.args.len }) ∧
    (n ≤ 65519 → s.cfg.memSize < src + n →
      exec .build s = .next { s with status := 0x0537, errinfo := s.args.src }) ∧
    (n ≤ 65519 → src + n ≤ s.cfg.memSize → s.cfg.memSize < dst + (16 + n) →
      exec .build s = .next { s with status := 0x0537, errinfo := s.args.dst }) ∧
    (n ≤ 65519 → src + n ≤ s.cfg.memSize → dst + (16 + n) ≤ s.cfg.memSize →
      ∃ m, exec .build s = .next { s with
          mem := m, acc := c, status := 0x0500, errinfo := 0
          res := { sync := 0xA39D7A, msgtype := s.args.msgtype, pktsize := ps, checksum := c,
                   tsHi := s.args.tsHi, tsLo := s.args.tsLo } } ∧
        Memory.readBytes m dst (16 + n) = wireBytes s.args.msgtype ps c s.args.tsHi s.args.tsLo ++ data ∧
        sameOutside s.mem m dst (16 + n))

/-- R131: the two-pass form and the patch-in-place form leave the same MEM: h0 ++ data written and folded, then only the
bytes at dst+6 and dst+7 rewritten with the checksum. -/
def Obligations.PatchInPlaceBuildsTheSamePacket : Prop :=
  ∀ s : State, srcLen s ≤ 65519 → srcAddr s + srcLen s ≤ s.cfg.memSize → dstAddr s + (16 + srcLen s) ≤ s.cfg.memSize →
    let h0 := wireBytes s.args.msgtype (BitVec.ofNat 16 (16 + srcLen s)) 0 s.args.tsHi s.args.tsLo
    let buf := h0 ++ Memory.readBytes s.mem (srcAddr s) (srcLen s)
    let c := fold buf 0
    let once := Memory.writeBytes s.mem (dstAddr s) buf
    let patched := Memory.write (Memory.write once (dstAddr s + 6) ((c >>> 8).setWidth 8)) (dstAddr s + 7) (c.setWidth 8)
    ∃ t, exec .build s = .next t ∧ ∀ a, Memory.read t.mem a = Memory.read patched a

/-- R132: the closed form of BUILD's checksum, and every packet BUILD makes folds to 0 over all its pktsize bytes. -/
def Obligations.BuiltPacketFoldsToZero : Prop :=
  (0xA3#8 ^^^ 0x9D#8 ^^^ 0x7A#8 = 0x44#8) ∧
  ∀ s : State, srcLen s ≤ 65519 → srcAddr s + srcLen s ≤ s.cfg.memSize → dstAddr s + (16 + srcLen s) ≤ s.cfg.memSize →
    let ps := BitVec.ofNat 16 (16 + srcLen s)
    let data := Memory.readBytes s.mem (srcAddr s) (srcLen s)
    ∃ t, exec .build s = .next t ∧
      t.acc = (0xA3#8 ^^^ 0x9D#8 ^^^ 0x7A#8 ^^^ s.args.msgtype ^^^ (ps >>> 8).setWidth 8 ^^^ ps.setWidth 8 ^^^
        (s.args.tsHi >>> 24).setWidth 8 ^^^ (s.args.tsHi >>> 16).setWidth 8 ^^^ (s.args.tsHi >>> 8).setWidth 8 ^^^
        s.args.tsHi.setWidth 8 ^^^
        (s.args.tsLo >>> 24).setWidth 8 ^^^ (s.args.tsLo >>> 16).setWidth 8 ^^^ (s.args.tsLo >>> 8).setWidth 8 ^^^
        s.args.tsLo.setWidth 8 ^^^ xorBytes data).setWidth 16 ∧
      fold (Memory.readBytes t.mem (dstAddr s) (16 + srcLen s)) 0 = 0

/-- R123, R77: every checksum that BUILD or VALIDATE computes has bits 15:8 equal to 0, so byte 6 of a built packet is
0x00. -/
def Obligations.ComputedChecksumsFitTheLowByte : Prop :=
  (∀ s t : State, exec .build s = .next t → codeField t.status = 0 →
    t.acc.toNat ≤ 0x00FF ∧ t.res.checksum = t.acc ∧ Memory.read t.mem (dstAddr s + 6) = 0) ∧
  (∀ (s t : State) (k : Fin 16), exec (.validate k) s = .next t → codeField t.status = 0 ∨ codeField t.status = 3 →
    t.acc.toNat ≤ 0x00FF)

/-- R233: a command on reset operands has a defined result: after reset a BUILD writes a 16-byte header at address 0 for
an empty payload. For every configuration that has 16 bytes of MEM and every MEM_INIT. -/
def Obligations.BuildRunsFromReset : Prop :=
  ∀ (cfg : Config) (m : Memory), 16 ≤ cfg.memSize →
    ∃ t, exec .build (State.resetWith cfg m) = .next t ∧ t.status = 0x0500 ∧ t.acc = 0x0054 ∧
      Memory.readBytes t.mem 0 16 = [0xA3, 0x9D, 0x7A, 0, 0, 0x10, 0, 0x54, 0, 0, 0, 0, 0, 0, 0, 0]

/-! ## The packet parser -/

/-- R142: PARSE k discards slot k first, then checks HEADER_SIZE, BOUNDS, SYNC and PKTSIZE in that order; when all pass,
slot k is HEADER_PARSED with the header's fields, the received checksum, datasize = pktsize - 16, and the header with
bytes 6 and 7 zeroed. ACC, RES and MEM are not written, nor is anything else but STATUS and ERRINFO. -/
def Obligations.ParseFillsTheSlot : Prop :=
  ∀ (s : State) (k : Fin 16), k.val < s.slots.length →
    let b := fun i => Memory.read s.mem (srcAddr s + i)
    let ps := b 4 ++ b 5
    let emptied := s.slots.set k.val
      { state := .empty, msgtype := 0, pktsize := 0, checksum := 0, ts := 0, datasize := 0, pbase := 0, plen := 0,
        hdrbuf := Vector.replicate 16 0 }
    (s.args.len ≠ 16 →
      exec (.parse k) s = .next { s with slots := emptied, status := 0x0611, errinfo := s.args.len }) ∧
    (s.args.len = 16 → s.cfg.memSize < srcAddr s + 16 →
      exec (.parse k) s = .next { s with slots := emptied, status := 0x0637, errinfo := s.args.src }) ∧
    (s.args.len = 16 → srcAddr s + 16 ≤ s.cfg.memSize → ¬ (b 0 = 0xA3 ∧ b 1 = 0x9D ∧ b 2 = 0x7A) →
      exec (.parse k) s = .next { s with slots := emptied, status := 0x0612,
                                         errinfo := (b 0 ++ b 1 ++ b 2).setWidth 32 }) ∧
    (s.args.len = 16 → srcAddr s + 16 ≤ s.cfg.memSize → b 0 = 0xA3 → b 1 = 0x9D → b 2 = 0x7A → ps.toNat < 16 →
      exec (.parse k) s = .next { s with slots := emptied, status := 0x0614, errinfo := ps.setWidth 32 }) ∧
    (s.args.len = 16 → srcAddr s + 16 ≤ s.cfg.memSize → b 0 = 0xA3 → b 1 = 0x9D → b 2 = 0x7A → 16 ≤ ps.toNat →
      exec (.parse k) s = .next { s with
        status := 0x0600, errinfo := 0
        slots := s.slots.set k.val
          { state := .headerParsed, msgtype := b 3, pktsize := ps, checksum := b 6 ++ b 7,
            ts := b 8 ++ b 9 ++ b 10 ++ b 11 ++ b 12 ++ b 13 ++ b 14 ++ b 15,
            datasize := BitVec.ofNat 16 (ps.toNat - 16), pbase := 0, plen := 0,
            hdrbuf := #v[0xA3, 0x9D, 0x7A, b 3, b 4, b 5, 0, 0, b 8, b 9, b 10, b 11, b 12, b 13, b 14, b 15] } })

/-- R143: the header a successful PARSE stores is the received one with bytes 6 and 7 zeroed, and its fold differs from
the received header's by the XOR of those two bytes. -/
def Obligations.StoredHeaderIsTheZeroedHeader : Prop :=
  ∀ (s t : State) (k : Fin 16), k.val < s.slots.length → exec (.parse k) s = .next t → codeField t.status = 0 →
    let h := Memory.readBytes s.mem (srcAddr s) 16
    (t.slot k.val).hdrbuf.toList = (h.set 6 0).set 7 0 ∧
    fold (t.slot k.val).hdrbuf.toList 0 =
      fold h 0 ^^^ (Memory.read s.mem (srcAddr s + 6) ^^^ Memory.read s.mem (srcAddr s + 7)).setWidth 16

/-- R150: VALIDATE k checks STATE, then BOUNDS, then the checksum over hdrbuf and then the payload. ACC is written in both
outcomes of the comparison; a difference makes the slot FAILED and raises CHECKSUM_ERROR(c); equality makes it VALIDATED
with the payload's place. Nothing else changes but STATUS and ERRINFO. -/
def Obligations.ValidateComparesTheChecksum : Prop :=
  ∀ (s : State) (k : Fin 16) (p : Slot), s.slots[k.val]? = some p →
    let c := fold (Memory.readBytes s.mem (srcAddr s) (srcLen s)) (fold p.hdrbuf.toList 0)
    (p.state ≠ .headerParsed →
      exec (.validate k) s = .next { s with
        status := 0x0736, errinfo := if p.state = .empty then 0 else if p.state = .validated then 2 else 3 }) ∧
    (p.state = .headerParsed → s.cfg.memSize < srcAddr s + srcLen s →
      exec (.validate k) s = .next { s with status := 0x0737, errinfo := s.args.src }) ∧
    (p.state = .headerParsed → srcAddr s + srcLen s ≤ s.cfg.memSize → c ≠ p.checksum →
      exec (.validate k) s = .next { s with
        acc := c, slots := s.slots.set k.val { p with state := .failed }, status := 0x0723,
        errinfo := c.setWidth 32 }) ∧
    (p.state = .headerParsed → srcAddr s + srcLen s ≤ s.cfg.memSize → c = p.checksum →
      exec (.validate k) s = .next { s with
        acc := c, status := 0x0700, errinfo := 0
        slots := s.slots.set k.val { p with state := .validated, pbase := s.args.src, plen := s.args.len } })

/-- R151: the checksum that a VALIDATE recomputes has bits 15:8 = 0; so a VALIDATE that reaches the comparison succeeds if
and only if the received checksum's high byte is 0 and its low byte is the XOR of the zeroed header and the payload. -/
def Obligations.ValidateSucceedsIffTheLowByteMatches : Prop :=
  ∀ (s : State) (k : Fin 16) (p : Slot), s.slots[k.val]? = some p → p.state = .headerParsed →
    srcAddr s + srcLen s ≤ s.cfg.memSize →
    ∃ t, exec (.validate k) s = .next t ∧
      (codeField t.status = 0 ↔
        p.checksum.toNat / 256 = 0 ∧
        p.checksum.setWidth 8 =
          xorBytes p.hdrbuf.toList ^^^ xorBytes (Memory.readBytes s.mem (srcAddr s) (srcLen s))) ∧
      (codeField t.status = 0 ∨ codeField t.status = 3) ∧ t.acc.toNat ≤ 0x00FF

/-- R155 and R141: RELEASE k gives slot k the empty value and never fails; nothing else changes but STATUS and ERRINFO. -/
def Obligations.ReleaseEmptiesTheSlot : Prop :=
  ∀ (s : State) (k : Fin 16),
    exec (.release k) s = .next { s with
      status := 0x0800, errinfo := 0
      slots := s.slots.set k.val
        { state := .empty, msgtype := 0, pktsize := 0, checksum := 0, ts := 0, datasize := 0, pbase := 0, plen := 0,
          hdrbuf := Vector.replicate 16 0 } }

/-- R140: the transitions of a slot. A command that names slot k moves it as the table says for its outcome; any other
command, an illegal word and every host step that is no CMD write leave it unchanged. -/
def Obligations.SlotsMoveOnlyAsTheTransitionTableSays : Prop :=
  (∀ (s t : State) (i : Instr) (k : Fin 16), k.val < s.slots.length → exec i s = .next t →
    (i = .parse k →
      (codeField t.status = 0 ∧ (t.slot k.val).state = .headerParsed) ∨
      ((codeField t.status = 1 ∨ codeField t.status = 7 ∨ codeField t.status = 2 ∨ codeField t.status = 4) ∧
        (t.slot k.val).state = .empty)) ∧
    (i = .validate k →
      ((s.slot k.val).state = .headerParsed ∧
        ((codeField t.status = 0 ∧ (t.slot k.val).state = .validated) ∨
         (codeField t.status = 3 ∧ (t.slot k.val).state = .failed) ∨
         (codeField t.status = 7 ∧ t.slot k.val = s.slot k.val))) ∨
      ((s.slot k.val).state ≠ .headerParsed ∧ codeField t.status = 6 ∧ t.slot k.val = s.slot k.val)) ∧
    (i = .release k → codeField t.status = 0 ∧ (t.slot k.val).state = .empty) ∧
    (i.slotOf ≠ some k → t.slot k.val = s.slot k.val)) ∧
  (∀ (s t : State) (w : Word) (e : DecodeError), decode s.cfg.numSlots w = .error e → command w s = .next t →
    codeField t.status = 8 ∧ t.slots = s.slots) ∧
  (∀ s t : State, (∀ w rest, s.host ≠ .regWrite 4 0x000 w :: rest) → step s = .next t → t.slots = s.slots)

/-- R156: a command on slot k writes only slot k, STATUS, ERRINFO and (VALIDATE only) ACC; and what it writes is the same
in any state that agrees on slot k, ARG_SRC, ARG_LEN, MEM_SIZE and the bytes of MEM. -/
def Obligations.SlotCommandsAreIndependentOfOtherSlots : Prop :=
  ∀ (s : State) (i : Instr) (k : Fin 16), i = .parse k ∨ i = .validate k ∨ i = .release k → k.val < s.slots.length →
    ∃ p st info a,
      exec i s = .next { s with slots := s.slots.set k.val p, status := st, errinfo := info, acc := a } ∧
      (i ≠ .validate k → a = s.acc) ∧
      ∀ u : State, k.val < u.slots.length → u.slot k.val = s.slot k.val → u.args.src = s.args.src →
        u.args.len = s.args.len → u.cfg.memSize = s.cfg.memSize →
        (∀ x, Memory.read u.mem x = Memory.read s.mem x) →
        ∃ a', exec i u = .next { u with slots := u.slots.set k.val p, status := st, errinfo := info, acc := a' } ∧
          (a' = a ∨ (a = s.acc ∧ a' = u.acc))

/-- R153: what BUILD wrote, PARSE and then VALIDATE give back: msgtype, timestamp, length and data, in all states u and w
between the commands whose MEM still holds the packet. -/
def Obligations.BuildParseValidateRoundTrips : Prop :=
  ∀ (s : State) (k : Fin 16), s.cfg.wf → k.val < s.slots.length → srcLen s ≤ 65519 →
    srcAddr s + srcLen s ≤ s.cfg.memSize → dstAddr s + (16 + srcLen s) ≤ s.cfg.memSize →
    ∃ t, exec .build s = .next t ∧ codeField t.status = 0 ∧
      ∀ u : State, u.cfg = s.cfg → k.val < u.slots.length → sameBytes t.mem u.mem (dstAddr s) (16 + srcLen s) →
        u.args.src = s.args.dst → u.args.len = 16 →
        ∃ v, exec (.parse k) u = .next v ∧ codeField v.status = 0 ∧ (v.slot k.val).datasize.toNat = srcLen s ∧
          ∀ w : State, w.cfg = s.cfg → k.val < w.slots.length → w.slot k.val = v.slot k.val →
            sameBytes t.mem w.mem (dstAddr s) (16 + srcLen s) → w.args.src = s.args.dst + 16 →
            w.args.len = (v.slot k.val).datasize.setWidth 32 →
            ∃ z, exec (.validate k) w = .next z ∧ codeField z.status = 0 ∧
              (z.slot k.val).state = .validated ∧ (z.slot k.val).msgtype = s.args.msgtype ∧
              (z.slot k.val).ts = s.args.tsHi ++ s.args.tsLo ∧ (z.slot k.val).datasize.toNat = srcLen s ∧
              Memory.readBytes z.mem (z.slot k.val).pbase.toNat (z.slot k.val).plen.toNat =
                Memory.readBytes s.mem (srcAddr s) (srcLen s)

/-- R152: flip one bit of a packet that BUILD made, at byte offset x. A flip in bytes 0 to 2 raises SYNC_ERROR at PARSE; a
flip in bytes 4 and 5 that brings pktsize below 16 raises PKTSIZE_ERROR at PARSE; every other flip passes PARSE, and
VALIDATE with the original length raises CHECKSUM_ERROR. No single-bit flip reaches VALIDATED. -/
def Obligations.SingleBitCorruptionNeverValidates : Prop :=
  ∀ (s : State) (k : Fin 16) (x b : Nat), s.cfg.wf → k.val < s.slots.length → srcLen s ≤ 65519 →
    srcAddr s + srcLen s ≤ s.cfg.memSize → dstAddr s + (16 + srcLen s) ≤ s.cfg.memSize → x < 16 + srcLen s → b < 8 →
    ∃ t v,
      exec .build s = .next t ∧
      let m := Memory.write t.mem (dstAddr s + x) (Memory.read t.mem (dstAddr s + x) ^^^ 1#8 <<< b)
      let ps := Memory.read m (dstAddr s + 4) ++ Memory.read m (dstAddr s + 5)
      exec (.parse k) { t with mem := m, args := { t.args with src := s.args.dst, len := 16 } } = .next v ∧
      (x ≤ 2 → codeField v.status = 2) ∧
      ((x = 4 ∨ x = 5) → ps.toNat < 16 → codeField v.status = 4) ∧
      (2 < x → ¬ ((x = 4 ∨ x = 5) ∧ ps.toNat < 16) →
        codeField v.status = 0 ∧
        ∃ z, exec (.validate k) { v with args := { v.args with src := s.args.dst + 16, len := s.args.len } } = .next z ∧
          codeField z.status = 3 ∧ (z.slot k.val).state = .failed)

/-! ## Errors and status -/

/-- R21: every write to CMD writes CODE, CLASS and LASTOP, with LASTOP the word's bits 7:0, legal or not, and ends in a
next state; no other step writes STATUS; STATUS reads as those fields and zeros; its reset value is 0. -/
def Obligations.EveryCmdWriteReportsStatus : Prop :=
  (∀ (s : State) (w : Word) (rest : List HostStep), s.host = .regWrite 4 0x000 w :: rest →
    ∃ t, step s = .next t ∧ lastopField t.status = w.setWidth 8 ∧ statusInv t.status t.errinfo ∧
      (readOffset t 0x004).toNat = (codeField t.status).toNat + 16 * (classField t.status).toNat +
        256 * (lastopField t.status).toNat) ∧
  (∀ s t : State, (∀ w rest, s.host ≠ .regWrite 4 0x000 w :: rest) → step s = .next t → t.status = s.status) ∧
  State.reset.status = 0

/-- R203: the only state changes of a command that raises are STATUS and ERRINFO and the writes before the raise: Discard
in PARSE, which every PARSE that raises makes, and ACC and FAILED in VALIDATE's CHECKSUM_ERROR (CODE 3), which every
CHECKSUM_ERROR makes and no other error. No MEM byte is written. -/
def Obligations.ErrorsArePrecise : Prop :=
  ∀ (i : Instr) (s t : State), exec i s = .next t → codeField t.status ≠ 0 →
    lastopField t.status = i.opcode ∧ statusInv t.status t.errinfo ∧
    ((t = { s with status := t.status, errinfo := t.errinfo } ∧ (∀ k, i ≠ .parse k) ∧ codeField t.status ≠ 3) ∨
     (∃ k : Fin 16, i = .parse k ∧ codeField t.status ≠ 3 ∧
        t = { s with status := t.status, errinfo := t.errinfo, slots := s.slots.set k.val Slot.empty }) ∨
     (∃ k : Fin 16, i = .validate k ∧ codeField t.status = 3 ∧
        t = { s with status := t.status, errinfo := t.errinfo, acc := t.errinfo.setWidth 16,
                     slots := s.slots.set k.val { s.slot k.val with state := .failed } }))

/-- R49, R50: a command that ends OK had every MEM operand in bounds, the sum taken over the integers; one that raises
BOUNDS_ERROR names the base of an operand that was not, and leaves MEM alone. -/
def Obligations.BoundsErrorsNameTheOperand : Prop :=
  ∀ (i : Instr) (s t : State), exec i s = .next t →
    let src := s.args.src
    let dst := s.args.dst
    let operands : List (Word × Nat) := match i with
      | .pack => [(dst, 16)]
      | .unpack => [(src, 16)]
      | .csum => [(src, s.args.len.toNat)]
      | .csumc => [(src, s.args.len.toNat)]
      | .build => [(src, s.args.len.toNat), (dst, 16 + s.args.len.toNat)]
      | .parse _ => [(src, 16)]
      | .validate _ => [(src, s.args.len.toNat)]
      | .release _ => []
    (codeField t.status = 0 → ∀ o ∈ operands, o.1.toNat + o.2 ≤ s.cfg.memSize) ∧
    (codeField t.status = 7 → t.mem = s.mem ∧ ∃ o ∈ operands, t.errinfo = o.1 ∧ s.cfg.memSize < o.1.toNat + o.2)

/-! ## What commands may touch -/

/-- No command writes an ARG register (R18, R236); ACC changes only by CSUM, CSUMC, BUILD and VALIDATE (R24, R235), RES
only by UNPACK and BUILD (R235), MEM only by PACK and BUILD (R51), slots only by the slot commands (R140); and a step that
is no CMD write changes none of ACC, RES, STATUS, ERRINFO and the slots (R18). That a command leaves the configuration
(R17), the host program and the reply alone is stated beside it; the last two are the model's own fields (log entries 3
and 5). -/
def Obligations.RegistersChangeOnlyByTheirCommands : Prop :=
  (∀ (i : Instr) (s t : State), exec i s = .next t →
    t.cfg = s.cfg ∧ t.args = s.args ∧ t.host = s.host ∧ t.reply = s.reply ∧
    (i ≠ .csum → i ≠ .csumc → i ≠ .build → (∀ k, i ≠ .validate k) → t.acc = s.acc) ∧
    (i ≠ .unpack → i ≠ .build → t.res = s.res) ∧
    (i ≠ .pack → i ≠ .build → t.mem = s.mem) ∧
    (i.slotOf = none → t.slots = s.slots)) ∧
  (∀ s t : State, (∀ w rest, s.host ≠ .regWrite 4 0x000 w :: rest) → step s = .next t →
    t.acc = s.acc ∧ t.res = s.res ∧ t.status = s.status ∧ t.errinfo = s.errinfo ∧ t.slots = s.slots)

/-- R24: CSUMC is the only command that reads ACC. Changing ACC before any other command changes nothing after it but
ACC itself, and that only where the command leaves ACC alone. -/
def Obligations.OnlyCsumcReadsTheAccumulator : Prop :=
  ∀ (i : Instr) (s t : State) (a : Half), i ≠ .csumc → exec i s = .next t →
    ∃ b, exec i { s with acc := a } = .next { t with acc := b } ∧ (b = t.acc ∨ (b = a ∧ t.acc = s.acc))

/-- R67: a command reads the operand registers the table lists for it and no other. Changing the other ARG registers
before it changes nothing after it but those registers themselves. -/
def Obligations.CommandsReadOnlyTheirOperands : Prop :=
  ∀ (i : Instr) (s t : State) (a : ArgRegs), exec i s = .next t →
    (match i with
      | .pack => a.dst = s.args.dst ∧ a.msgtype = s.args.msgtype ∧ a.pktsize = s.args.pktsize ∧
          a.checksum = s.args.checksum ∧ a.tsHi = s.args.tsHi ∧ a.tsLo = s.args.tsLo
      | .unpack => a.src = s.args.src ∧ a.len = s.args.len
      | .csum => a.src = s.args.src ∧ a.len = s.args.len ∧ a.seed = s.args.seed
      | .csumc => a.src = s.args.src ∧ a.len = s.args.len
      | .build => a.msgtype = s.args.msgtype ∧ a.tsHi = s.args.tsHi ∧ a.tsLo = s.args.tsLo ∧
          a.src = s.args.src ∧ a.len = s.args.len ∧ a.dst = s.args.dst
      | .parse _ => a.src = s.args.src ∧ a.len = s.args.len
      | .validate _ => a.src = s.args.src ∧ a.len = s.args.len
      | .release _ => True) →
    exec i { s with args := a } = .next { t with args := a }

/-- No command reads STATUS (R22), and the table of the operands each command reads names neither ERRINFO nor a RES
register (R67). Changing them before a command changes nothing after it
but the RES registers themselves, and those only where the command leaves them alone. -/
def Obligations.CommandsReadNeitherStatusNorResults : Prop :=
  ∀ (i : Instr) (s t : State) (st : Half) (info : Word) (r : ResRegs), exec i s = .next t →
    ∃ r', exec i { s with status := st, errinfo := info, res := r } = .next { t with res := r' } ∧
      (r' = t.res ∨ (r' = r ∧ t.res = s.res))

/-- R51: a command's result depends on MEM only through the range the table says it reads, and it writes no byte outside
the range the table says it writes. -/
def Obligations.CommandsAccessOnlyTheirMemRanges : Prop :=
  ∀ (i : Instr) (s t : State) (m : Memory), exec i s = .next t →
    sameBytes s.mem m (readRange i s).1 (readRange i s).2 →
    sameOutside s.mem t.mem (writeRange i s).1 (writeRange i s).2 ∧
    ∃ m', exec i { s with mem := m } = .next { t with mem := m' } ∧
      sameOutside m m' (writeRange i s).1 (writeRange i s).2 ∧
      (codeField t.status = 0 → sameBytes t.mem m' (writeRange i s).1 (writeRange i s).2)

/-! ## Runs -/

/-- R205: no error stops PCODEC. A run whose host steps stay inside the interface (R41, R244) never stops, however long,
whatever words it writes to CMD. For n beyond the host steps still to be performed this rests on the idle step, which is
the model's reading of R214 and R243 (log entry 4, DEDUCED). -/
def Obligations.AcceptedHostProgramsNeverStop : Prop :=
  ∀ (n : Nat) (s : State), s.safe → ∃ t : State, Sys2Proof.core.run n s = .next t

/-- R16, R243: a run performs its host steps one by one and ends after the last; the block has no step of its own, so it
then keeps its state (idling is the model's reading, log entry 4). -/
def Obligations.RunsEndWithTheirLastHostStep : Prop :=
  ∀ (s t : State), Sys2Proof.core.run s.host.length s = .next t →
    t.host = [] ∧ ∀ m, Sys2Proof.core.run (s.host.length + m) s = .next t

/-- R71: each pseudo-instruction, run step by step, is its command on the operands it wrote. -/
def Obligations.PseudoInstructionsRunTheirExpansion : Prop :=
  ∀ (s : State) (dst mt ps ck src n seed : Word) (x : Stamp) (k : Fin 16), k.val < s.cfg.numSlots →
    let idle : State := { s with host := [], reply := none }
    let hi := (x >>> 32).setWidth 32
    let lo := x.setWidth 32
    Sys2Proof.core.run 7 { s with host := HostProgram.pack dst mt ps ck x } =
      exec .pack { idle with args := { s.args with
        dst := dst, msgtype := mt.setWidth 8, pktsize := ps.setWidth 16, checksum := ck.setWidth 16,
        tsHi := hi, tsLo := lo } } ∧
    Sys2Proof.core.run 3 { s with host := HostProgram.unpack src } =
      exec .unpack { idle with args := { s.args with src := src, len := 16 } } ∧
    Sys2Proof.core.run 4 { s with host := HostProgram.checksum src n seed } =
      exec .csum { idle with args := { s.args with src := src, len := n, seed := seed.setWidth 16 } } ∧
    Sys2Proof.core.run 3 { s with host := HostProgram.checksumc src n } =
      exec .csumc { idle with args := { s.args with src := src, len := n } } ∧
    Sys2Proof.core.run 7 { s with host := HostProgram.build mt x src n dst } =
      exec .build { idle with args := { s.args with
        msgtype := mt.setWidth 8, tsHi := hi, tsLo := lo, src := src, len := n, dst := dst } } ∧
    Sys2Proof.core.run 3 { s with host := HostProgram.parse k src } =
      exec (.parse k) { idle with args := { s.args with src := src, len := 16 } } ∧
    Sys2Proof.core.run 3 { s with host := HostProgram.validate k src n } =
      exec (.validate k) { idle with args := { s.args with src := src, len := n } }
end

