-- ==== Sys2Proof/Laws/Memory.lean ====
section
/-! SUPPORT. The laws of MEM: what a read returns after a write, and that every memory operation keeps the canonical
form. -/

namespace Sys2Proof.Machine.Memory

/-! ## Reads after writes -/

theorem read_place_same (m : Memory) (a : Nat) (b : Byte) (h : ∀ c ∈ m, c.1 ≠ a) : read (place m (a, b)) a = b := by
  induction m with
  | nil => simp [place, read]
  | cons d rest ih =>
    have hd : d.1 ≠ a := h d (by simp)
    by_cases hlt : a < d.1
    · simp [place, hlt, read]
    · simp [place, hlt, read, hd, ih (fun c hc => h c (by simp [hc]))]

theorem read_place_other (m : Memory) (a : Nat) (b : Byte) {x : Nat} (h : x ≠ a) :
    read (place m (a, b)) x = read m x := by
  have hne : ¬ a = x := fun e => h e.symm
  induction m with
  | nil => simp [place, read, hne]
  | cons d rest ih =>
    by_cases hlt : a < d.1
    · simp [place, hlt, read, hne]
    · simp [place, hlt, read, ih]

theorem read_filter_same (m : Memory) (a : Nat) : read (m.filter (fun c => decide (c.1 ≠ a))) a = unlisted := by
  induction m with
  | nil => rfl
  | cons d rest ih =>
    by_cases hd : d.1 = a
    · simpa [List.filter, hd] using ih
    · simpa [List.filter, hd, read] using ih

theorem read_filter_other (m : Memory) (a : Nat) {x : Nat} (h : x ≠ a) :
    read (m.filter (fun c => decide (c.1 ≠ a))) x = read m x := by
  induction m with
  | nil => rfl
  | cons d rest ih =>
    by_cases hd : d.1 = a
    · have : ¬ d.1 = x := fun e => h (e.symm.trans hd)
      have ha : ¬ a = x := fun e => h e.symm
      simpa [List.filter, hd, read, ha] using ih
    · by_cases hx : d.1 = x
      · simp [List.filter, read, hx, h]
      · simpa [List.filter, hd, read, hx] using ih

@[simp] theorem read_write_same (m : Memory) (a : Nat) (b : Byte) : read (write m a b) a = b := by
  by_cases hb : b = unlisted
  · simp only [write, hb, if_true]; exact read_filter_same m a
  · simp only [write, hb, if_false]
    exact read_place_same _ a b (fun c hc => by simpa using (List.mem_filter.mp hc).2)

theorem read_write_other (m : Memory) (a : Nat) (b : Byte) {x : Nat} (h : x ≠ a) :
    read (write m a b) x = read m x := by
  by_cases hb : b = unlisted
  · simp only [write, hb, if_true]; exact read_filter_other m a h
  · simp only [write, hb, if_false]
    rw [read_place_other _ a b h, read_filter_other m a h]

/-- One byte written: everything a later read can see. -/
theorem read_write (m : Memory) (a x : Nat) (b : Byte) : read (write m a b) x = if x = a then b else read m x := by
  by_cases h : x = a
  · subst h; simp
  · simp [h, read_write_other m a b h]

/-- A run of bytes written: everything a later read can see. -/
theorem read_writeBytes (l : List Byte) : ∀ (m : Memory) (a x : Nat),
    read (writeBytes m a l) x = if a ≤ x ∧ x < a + l.length then l.getD (x - a) 0 else read m x := by
  induction l with
  | nil => intro m a x; simp only [writeBytes, List.length_nil]; rw [if_neg (by omega)]
  | cons b rest ih =>
    intro m a x
    simp only [writeBytes, ih, List.length_cons, read_write]
    by_cases hx : x = a
    · subst hx; rw [if_neg (by omega), if_pos rfl, if_pos (by omega)]; simp
    · by_cases hr : a + 1 ≤ x ∧ x < a + 1 + rest.length
      · rw [if_pos hr, if_pos (by omega)]
        obtain ⟨d, rfl⟩ : ∃ d, x = a + 1 + d := ⟨x - (a + 1), by omega⟩
        simp [show a + 1 + d - a = d + 1 by omega]
      · rw [if_neg hr, if_neg hx, if_neg (by omega)]

/-! ## Runs of bytes read -/

@[simp] theorem length_readBytes (m : Memory) (n : Nat) : ∀ a, (readBytes m a n).length = n := by
  induction n with
  | zero => intro a; rfl
  | succ n ih => intro a; simp [readBytes, ih]

theorem getD_readBytes (m : Memory) (n : Nat) : ∀ (a i : Nat), i < n → (readBytes m a n).getD i 0 = read m (a + i) := by
  induction n with
  | zero => intro a i h; omega
  | succ n ih =>
    intro a i h
    cases i with
    | zero => simp [readBytes]
    | succ i =>
      have := ih (a + 1) i (by omega)
      simpa [readBytes, Nat.add_assoc, Nat.add_comm 1 i] using this

/-- Two memories that read alike on a range give the same run of bytes. -/
theorem readBytes_congr {m m' : Memory} (n : Nat) : ∀ a, sameBytes m m' a n → readBytes m' a n = readBytes m a n := by
  induction n with
  | zero => intro a _; rfl
  | succ n ih =>
    intro a h
    simp only [readBytes]
    rw [h a (by omega) (by omega), ih (a + 1) (fun x h1 h2 => h x (by omega) (by omega))]

theorem readBytes_append (m : Memory) (n k : Nat) : ∀ a, readBytes m a (n + k) = readBytes m a n ++ readBytes m (a + n) k := by
  induction n with
  | zero => intro a; simp [readBytes]
  | succ n ih =>
    intro a
    rw [show n + 1 + k = (n + k) + 1 by omega]
    simp only [readBytes, List.cons_append]
    rw [ih (a + 1), show a + 1 + n = a + (n + 1) by omega]

/-- What was written is read back. -/
theorem readBytes_writeBytes (l : List Byte) : ∀ (m : Memory) (a : Nat), readBytes (writeBytes m a l) a l.length = l := by
  induction l with
  | nil => intro m a; rfl
  | cons b rest ih =>
    intro m a
    simp only [List.length_cons, readBytes, writeBytes, ih]
    rw [read_writeBytes, if_neg (by omega), read_write_same]

theorem sameOutside_writeBytes (m : Memory) (a : Nat) (l : List Byte) : sameOutside m (writeBytes m a l) a l.length := by
  intro x hx
  rw [read_writeBytes, if_neg (by omega)]

theorem readHeader_toList (m : Memory) (a : Nat) : (readHeader m a).toList = readBytes m a 16 := rfl

theorem readHeader_congr {m m' : Memory} {a : Nat} (h : sameBytes m m' a 16) : readHeader m' a = readHeader m a := by
  rw [← Vector.toList_inj, readHeader_toList, readHeader_toList, readBytes_congr 16 a h]

/-! ## The canonical form -/

theorem mem_place {m : Memory} {c d : Host.Cell} : d ∈ place m c ↔ d = c ∨ d ∈ m := by
  induction m with
  | nil => simp [place]
  | cons e rest ih =>
    by_cases h : c.1 < e.1
    · simp [place, h]
    · simp only [place, h, if_false, List.mem_cons, ih]; tauto

theorem wf_place {m : Memory} {c : Host.Cell} (h : m.wf) (hc : c.2 ≠ unlisted) (hn : ∀ d ∈ m, d.1 ≠ c.1) :
    (place m c).wf := by
  refine ⟨?_, fun d hd => ?_⟩
  · induction m with
    | nil => simp [place]
    | cons e rest ih =>
      have hp := List.pairwise_cons.mp h.1
      by_cases hlt : c.1 < e.1
      · simp only [place, hlt, if_true]
        refine List.pairwise_cons.mpr ⟨fun d hd => ?_, h.1⟩
        rcases List.mem_cons.mp hd with rfl | hd
        · exact hlt
        · exact hlt.trans (hp.1 d hd)
      · simp only [place, hlt, if_false]
        refine List.pairwise_cons.mpr ⟨fun d hd => ?_, ?_⟩
        · rcases mem_place.mp hd with rfl | hd
          · have := hn e (by simp); omega
          · exact hp.1 d hd
        · exact ih ⟨hp.2, fun d hd => h.2 d (by simp [hd])⟩ (fun d hd => hn d (by simp [hd]))
  · rcases mem_place.mp hd with rfl | hd
    · exact hc
    · exact h.2 d hd

theorem wf_filter {m : Memory} (f : Host.Cell → Bool) (h : m.wf) : wf (m.filter f) :=
  ⟨h.1.filter f, fun c hc => h.2 c (List.mem_filter.mp hc).1⟩

theorem wf_write {m : Memory} (a : Nat) (b : Byte) (h : m.wf) : (write m a b).wf := by
  by_cases hb : b = unlisted
  · simp only [write, hb, if_true]; exact wf_filter _ h
  · simp only [write, hb, if_false]
    exact wf_place (wf_filter _ h) hb (fun c hc => by simpa using (List.mem_filter.mp hc).2)

theorem mem_write {m : Memory} {a : Nat} {b : Byte} {c : Host.Cell} (h : c ∈ write m a b) : c.1 = a ∨ c ∈ m := by
  by_cases hb : b = unlisted
  · simp only [write, hb, if_true] at h; exact .inr (List.mem_filter.mp h).1
  · simp only [write, hb, if_false] at h
    rcases mem_place.mp h with rfl | h
    · exact .inl rfl
    · exact .inr (List.mem_filter.mp h).1

/-- A byte written below MEM_SIZE keeps MEM canonical and inside MEM_SIZE. -/
theorem memInv_write {n : Nat} {m : Memory} {a : Nat} (b : Byte) (h : memInv n m) (ha : a < n) :
    memInv n (write m a b) :=
  ⟨wf_write a b h.1, fun c hc => by
    rcases mem_write hc with e | hc
    · omega
    · exact h.2 c hc⟩

/-- A run of bytes written below MEM_SIZE keeps MEM canonical and inside MEM_SIZE. -/
theorem memInv_writeBytes {n : Nat} (l : List Byte) : ∀ {m : Memory} {a : Nat}, memInv n m → a + l.length ≤ n →
    memInv n (writeBytes m a l) := by
  induction l with
  | nil => intro m a h _; exact h
  | cons b rest ih =>
    intro m a h hl
    simp only [List.length_cons] at hl
    exact ih (memInv_write b h (by omega)) (by omega)

theorem wf_reset : Memory.wf State.reset.mem := by decide

end Sys2Proof.Machine.Memory
end

