-- ==== Sys2Proof/Laws/State.lean ====
section
/-! SUPPORT. One lemma for each field of State and each named update, and the lemmas of the slot accessor. -/

namespace Sys2Proof.Machine.State

variable (s : State)

/-! The update setOutcome writes STATUS and ERRINFO only. -/

@[simp] theorem setOutcome_cfg (op : Byte) (c : Code) (info : Word) : (s.setOutcome op c info).cfg = s.cfg := rfl
@[simp] theorem setOutcome_status (op : Byte) (c : Code) (info : Word) : (s.setOutcome op c info).status = statusWord op c := rfl
@[simp] theorem setOutcome_errinfo (op : Byte) (c : Code) (info : Word) : (s.setOutcome op c info).errinfo = info := rfl
@[simp] theorem setOutcome_acc (op : Byte) (c : Code) (info : Word) : (s.setOutcome op c info).acc = s.acc := rfl
@[simp] theorem setOutcome_args (op : Byte) (c : Code) (info : Word) : (s.setOutcome op c info).args = s.args := rfl
@[simp] theorem setOutcome_res (op : Byte) (c : Code) (info : Word) : (s.setOutcome op c info).res = s.res := rfl
@[simp] theorem setOutcome_slots (op : Byte) (c : Code) (info : Word) : (s.setOutcome op c info).slots = s.slots := rfl
@[simp] theorem setOutcome_mem (op : Byte) (c : Code) (info : Word) : (s.setOutcome op c info).mem = s.mem := rfl
@[simp] theorem setOutcome_host (op : Byte) (c : Code) (info : Word) : (s.setOutcome op c info).host = s.host := rfl
@[simp] theorem setOutcome_reply (op : Byte) (c : Code) (info : Word) : (s.setOutcome op c info).reply = s.reply := rfl

/-! The update setAcc writes ACC only. -/

@[simp] theorem setAcc_cfg (v : Half) : (s.setAcc v).cfg = s.cfg := rfl
@[simp] theorem setAcc_status (v : Half) : (s.setAcc v).status = s.status := rfl
@[simp] theorem setAcc_errinfo (v : Half) : (s.setAcc v).errinfo = s.errinfo := rfl
@[simp] theorem setAcc_acc (v : Half) : (s.setAcc v).acc = v := rfl
@[simp] theorem setAcc_args (v : Half) : (s.setAcc v).args = s.args := rfl
@[simp] theorem setAcc_res (v : Half) : (s.setAcc v).res = s.res := rfl
@[simp] theorem setAcc_slots (v : Half) : (s.setAcc v).slots = s.slots := rfl
@[simp] theorem setAcc_mem (v : Half) : (s.setAcc v).mem = s.mem := rfl
@[simp] theorem setAcc_host (v : Half) : (s.setAcc v).host = s.host := rfl
@[simp] theorem setAcc_reply (v : Half) : (s.setAcc v).reply = s.reply := rfl

/-! The update setRes writes RES only. -/

@[simp] theorem setRes_cfg (r : ResRegs) : (s.setRes r).cfg = s.cfg := rfl
@[simp] theorem setRes_status (r : ResRegs) : (s.setRes r).status = s.status := rfl
@[simp] theorem setRes_errinfo (r : ResRegs) : (s.setRes r).errinfo = s.errinfo := rfl
@[simp] theorem setRes_acc (r : ResRegs) : (s.setRes r).acc = s.acc := rfl
@[simp] theorem setRes_args (r : ResRegs) : (s.setRes r).args = s.args := rfl
@[simp] theorem setRes_res (r : ResRegs) : (s.setRes r).res = r := rfl
@[simp] theorem setRes_slots (r : ResRegs) : (s.setRes r).slots = s.slots := rfl
@[simp] theorem setRes_mem (r : ResRegs) : (s.setRes r).mem = s.mem := rfl
@[simp] theorem setRes_host (r : ResRegs) : (s.setRes r).host = s.host := rfl
@[simp] theorem setRes_reply (r : ResRegs) : (s.setRes r).reply = s.reply := rfl

/-! The update setArgs writes ARG only. -/

@[simp] theorem setArgs_cfg (a : ArgRegs) : (s.setArgs a).cfg = s.cfg := rfl
@[simp] theorem setArgs_status (a : ArgRegs) : (s.setArgs a).status = s.status := rfl
@[simp] theorem setArgs_errinfo (a : ArgRegs) : (s.setArgs a).errinfo = s.errinfo := rfl
@[simp] theorem setArgs_acc (a : ArgRegs) : (s.setArgs a).acc = s.acc := rfl
@[simp] theorem setArgs_args (a : ArgRegs) : (s.setArgs a).args = a := rfl
@[simp] theorem setArgs_res (a : ArgRegs) : (s.setArgs a).res = s.res := rfl
@[simp] theorem setArgs_slots (a : ArgRegs) : (s.setArgs a).slots = s.slots := rfl
@[simp] theorem setArgs_mem (a : ArgRegs) : (s.setArgs a).mem = s.mem := rfl
@[simp] theorem setArgs_host (a : ArgRegs) : (s.setArgs a).host = s.host := rfl
@[simp] theorem setArgs_reply (a : ArgRegs) : (s.setArgs a).reply = s.reply := rfl

/-! The update setMem writes MEM only. -/

@[simp] theorem setMem_cfg (m : Memory) : (s.setMem m).cfg = s.cfg := rfl
@[simp] theorem setMem_status (m : Memory) : (s.setMem m).status = s.status := rfl
@[simp] theorem setMem_errinfo (m : Memory) : (s.setMem m).errinfo = s.errinfo := rfl
@[simp] theorem setMem_acc (m : Memory) : (s.setMem m).acc = s.acc := rfl
@[simp] theorem setMem_args (m : Memory) : (s.setMem m).args = s.args := rfl
@[simp] theorem setMem_res (m : Memory) : (s.setMem m).res = s.res := rfl
@[simp] theorem setMem_slots (m : Memory) : (s.setMem m).slots = s.slots := rfl
@[simp] theorem setMem_mem (m : Memory) : (s.setMem m).mem = m := rfl
@[simp] theorem setMem_host (m : Memory) : (s.setMem m).host = s.host := rfl
@[simp] theorem setMem_reply (m : Memory) : (s.setMem m).reply = s.reply := rfl

/-! The update setHost writes the host program only. -/

@[simp] theorem setHost_cfg (l : List HostStep) : (s.setHost l).cfg = s.cfg := rfl
@[simp] theorem setHost_status (l : List HostStep) : (s.setHost l).status = s.status := rfl
@[simp] theorem setHost_errinfo (l : List HostStep) : (s.setHost l).errinfo = s.errinfo := rfl
@[simp] theorem setHost_acc (l : List HostStep) : (s.setHost l).acc = s.acc := rfl
@[simp] theorem setHost_args (l : List HostStep) : (s.setHost l).args = s.args := rfl
@[simp] theorem setHost_res (l : List HostStep) : (s.setHost l).res = s.res := rfl
@[simp] theorem setHost_slots (l : List HostStep) : (s.setHost l).slots = s.slots := rfl
@[simp] theorem setHost_mem (l : List HostStep) : (s.setHost l).mem = s.mem := rfl
@[simp] theorem setHost_host (l : List HostStep) : (s.setHost l).host = l := rfl
@[simp] theorem setHost_reply (l : List HostStep) : (s.setHost l).reply = s.reply := rfl

/-! The update setReply writes the reply only. -/

@[simp] theorem setReply_cfg (r : Option Reply) : (s.setReply r).cfg = s.cfg := rfl
@[simp] theorem setReply_status (r : Option Reply) : (s.setReply r).status = s.status := rfl
@[simp] theorem setReply_errinfo (r : Option Reply) : (s.setReply r).errinfo = s.errinfo := rfl
@[simp] theorem setReply_acc (r : Option Reply) : (s.setReply r).acc = s.acc := rfl
@[simp] theorem setReply_args (r : Option Reply) : (s.setReply r).args = s.args := rfl
@[simp] theorem setReply_res (r : Option Reply) : (s.setReply r).res = s.res := rfl
@[simp] theorem setReply_slots (r : Option Reply) : (s.setReply r).slots = s.slots := rfl
@[simp] theorem setReply_mem (r : Option Reply) : (s.setReply r).mem = s.mem := rfl
@[simp] theorem setReply_host (r : Option Reply) : (s.setReply r).host = s.host := rfl
@[simp] theorem setReply_reply (r : Option Reply) : (s.setReply r).reply = r := rfl

/-! The update setSlot writes a slot only. -/

@[simp] theorem setSlot_cfg (k : Nat) (p : Slot) : (s.setSlot k p).cfg = s.cfg := rfl
@[simp] theorem setSlot_status (k : Nat) (p : Slot) : (s.setSlot k p).status = s.status := rfl
@[simp] theorem setSlot_errinfo (k : Nat) (p : Slot) : (s.setSlot k p).errinfo = s.errinfo := rfl
@[simp] theorem setSlot_acc (k : Nat) (p : Slot) : (s.setSlot k p).acc = s.acc := rfl
@[simp] theorem setSlot_args (k : Nat) (p : Slot) : (s.setSlot k p).args = s.args := rfl
@[simp] theorem setSlot_res (k : Nat) (p : Slot) : (s.setSlot k p).res = s.res := rfl
@[simp] theorem setSlot_slots (k : Nat) (p : Slot) : (s.setSlot k p).slots = s.slots.set k p := rfl
@[simp] theorem setSlot_mem (k : Nat) (p : Slot) : (s.setSlot k p).mem = s.mem := rfl
@[simp] theorem setSlot_host (k : Nat) (p : Slot) : (s.setSlot k p).host = s.host := rfl
@[simp] theorem setSlot_reply (k : Nat) (p : Slot) : (s.setSlot k p).reply = s.reply := rfl

/-! Slots. -/

theorem slot_of_get {k : Nat} {p : Slot} (h : s.slots[k]? = some p) : s.slot k = p := by
  simp [slot, List.getD, h]

theorem get_of_lt {k : Nat} (h : k < s.slots.length) : s.slots[k]? = some (s.slot k) := by
  simp [slot, List.getD, h]

theorem slot_setSlot_same {k : Nat} (p : Slot) (h : k < s.slots.length) : (s.setSlot k p).slot k = p := by
  simp [slot, setSlot, List.getD, h]

theorem slot_setSlot_other {j k : Nat} (p : Slot) (h : k ≠ j) : (s.setSlot k p).slot j = s.slot j := by
  simp [slot, setSlot, List.getD, List.getElem?_set_ne h]

/-- Writing a slot's own value back changes nothing. -/
theorem setSlot_self {k : Nat} (h : k < s.slots.length) : s.setSlot k (s.slot k) = s := by
  have : s.slots.set k (s.slot k) = s.slots := by
    apply List.ext_getElem? ; intro j
    by_cases hj : k = j
    · subst hj; rw [List.getElem?_set_self h, get_of_lt s h]
    · rw [List.getElem?_set_ne hj]
  simp [setSlot, this]

end Sys2Proof.Machine.State
end

