-- ==== Sys2Proof/Laws/Ops.lean ====
section
/-! SUPPORT. What the shared operations of the commands can do: the fields of STATUS, `raise`, `finish`, and one case
lemma for each command. -/

namespace Sys2Proof.Machine

/-! ## STATUS -/

@[simp] theorem codeField_statusWord (op : Byte) (c : Code) : codeField (statusWord op c) = codeBits c := by
  revert op; cases c <;> decide

@[simp] theorem classField_statusWord (op : Byte) (c : Code) : classField (statusWord op c) = classBits c := by
  revert op; cases c <;> decide

@[simp] theorem zeroField_statusWord (op : Byte) (c : Code) : zeroField (statusWord op c) = 0 := by
  revert op; cases c <;> decide

@[simp] theorem lastopField_statusWord (op : Byte) (c : Code) : lastopField (statusWord op c) = op := by
  revert op; cases c <;> decide

/-- The register is its four fields. -/
theorem statusWord_toNat (op : Byte) (c : Code) :
    (statusWord op c).toNat = (codeBits c).toNat + 16 * (classBits c).toNat + 256 * op.toNat := by
  revert op; cases c <;> decide

/-- Every outcome leaves a legal STATUS and ERRINFO. -/
theorem statusInv_statusWord (op : Byte) (c : Code) (info : Word) (h : c = .ok → info = 0) :
    statusInv (statusWord op c) info := by
  cases c <;> simp [statusInv, codeBits, classBits]
  exact h rfl

theorem codeBits_eq_zero {c : Code} : codeBits c = 0 ↔ c = .ok := by cases c <;> simp [codeBits]

/-! ## The two ways a command ends -/

theorem raise_eq (op : Byte) (c : Code) (info : Word) (s : State) : raise op c info s = .next (s.setOutcome op c info) :=
  rfl

theorem finish_eq (op : Byte) (s : State) : finish op s = .next (s.setOutcome op .ok 0) := rfl

theorem next_inj {s t : State} (h : (Host.Outcome.next s : Host.Outcome State Fault Refusal) = .next t) : t = s := by
  injection h with h; exact h.symm

/-! ## One case lemma for each command -/

theorem execPack_cases (s : State) :
    (s.cfg.memSize < dstAddr s + 16 ∧ exec .pack s = .next (s.setOutcome 0x01 .boundsError s.args.dst)) ∨
    (dstAddr s + 16 ≤ s.cfg.memSize ∧
      exec .pack s = .next ((s.setMem (Memory.writeBytes s.mem (dstAddr s)
        (packHeader s.args.msgtype s.args.pktsize s.args.checksum (argTs s)).toList)).setOutcome 0x01 .ok 0)) := by
  by_cases h : InBounds s (dstAddr s) 16
  · exact .inr ⟨h, by simp [exec, execPack, h, finish_eq, Instr.opcode]⟩
  · exact .inl ⟨Nat.not_le.mp h, by simp [exec, execPack, h, raise_eq, Instr.opcode]⟩

theorem execUnpack_cases (s : State) :
    (s.args.len ≠ 16 ∧ exec .unpack s = .next (s.setOutcome 0x02 .headerSizeError s.args.len)) ∨
    (s.args.len = 16 ∧ s.cfg.memSize < srcAddr s + 16 ∧
      exec .unpack s = .next (s.setOutcome 0x02 .boundsError s.args.src)) ∨
    (s.args.len = 16 ∧ srcAddr s + 16 ≤ s.cfg.memSize ∧
      exec .unpack s = .next ((s.setRes (resOf (unpackHeader (srcHeader s)))).setOutcome 0x02 .ok 0)) := by
  by_cases hl : s.args.len = 16
  · by_cases h : InBounds s (srcAddr s) 16
    · exact .inr (.inr ⟨hl, h, by simp [exec, execUnpack, hl, h, finish_eq, Instr.opcode]⟩)
    · exact .inr (.inl ⟨hl, Nat.not_le.mp h, by simp [exec, execUnpack, hl, h, raise_eq, Instr.opcode]⟩)
  · exact .inl ⟨hl, if_pos hl⟩

theorem checksumFrom_cases (op : Byte) (seed : Half) (s : State) :
    (s.cfg.memSize < srcAddr s + srcLen s ∧
      checksumFrom op seed s = .next (s.setOutcome op .boundsError s.args.src)) ∨
    (srcAddr s + srcLen s ≤ s.cfg.memSize ∧
      checksumFrom op seed s = .next ((s.setAcc (fold (srcBytes s) seed)).setOutcome op .ok 0)) := by
  by_cases h : InBounds s (srcAddr s) (srcLen s)
  · exact .inr ⟨h, by simp [checksumFrom, h, finish_eq]⟩
  · exact .inl ⟨Nat.not_le.mp h, by simp [checksumFrom, h, raise_eq]⟩

theorem exec_csum (s : State) : exec .csum s = checksumFrom 0x03 s.args.seed s := rfl

theorem exec_csumc (s : State) : exec .csumc s = checksumFrom 0x04 s.acc s := rfl

/-- The state a successful BUILD leaves. -/
def builtState (s : State) : State :=
  (((s.setMem (Memory.writeBytes s.mem (dstAddr s) (builtPacket s))).setAcc (builtChecksum s)).setRes
    (builtRes s)).setOutcome 0x05 .ok 0

theorem execBuild_cases (s : State) :
    (65519 < srcLen s ∧ exec .build s = .next (s.setOutcome 0x05 .lengthError s.args.len)) ∨
    (srcLen s ≤ 65519 ∧ s.cfg.memSize < srcAddr s + srcLen s ∧
      exec .build s = .next (s.setOutcome 0x05 .boundsError s.args.src)) ∨
    (srcLen s ≤ 65519 ∧ srcAddr s + srcLen s ≤ s.cfg.memSize ∧ s.cfg.memSize < dstAddr s + (16 + srcLen s) ∧
      exec .build s = .next (s.setOutcome 0x05 .boundsError s.args.dst)) ∨
    (srcLen s ≤ 65519 ∧ srcAddr s + srcLen s ≤ s.cfg.memSize ∧ dstAddr s + (16 + srcLen s) ≤ s.cfg.memSize ∧
      exec .build s = .next (builtState s)) := by
  by_cases hl : maxPayload < srcLen s
  · exact .inl ⟨hl, by simp [exec, execBuild, hl, raise_eq, Instr.opcode]⟩
  have hl' : srcLen s ≤ 65519 := Nat.not_lt.mp hl
  by_cases h : InBounds s (srcAddr s) (srcLen s)
  · by_cases hd : InBounds s (dstAddr s) (16 + srcLen s)
    · exact .inr (.inr (.inr ⟨hl', h, hd, by
        simp [exec, execBuild, hl, h, hd, finish_eq, Instr.opcode, builtState]⟩))
    · exact .inr (.inr (.inl ⟨hl', h, Nat.not_le.mp hd, by
        simp [exec, execBuild, hl, h, hd, raise_eq, Instr.opcode]⟩))
  · exact .inr (.inl ⟨hl', Nat.not_le.mp h, by simp [exec, execBuild, hl, h, raise_eq, Instr.opcode]⟩)

/-- The header PARSE reads. -/
def parsedHeader (s : State) : Header := unpackHeader (srcHeader s)

/-- PARSE with its operands read from the state before Discard, which changes none of them. -/
theorem execParse_eq (k : Fin 16) (s : State) :
    exec (.parse k) s =
      if s.args.len ≠ 16 then raise 0x06 .headerSizeError s.args.len (discardSlot k s)
      else if ¬ srcAddr s + 16 ≤ s.cfg.memSize then raise 0x06 .boundsError s.args.src (discardSlot k s)
      else if (parsedHeader s).sync ≠ syncTriplet then
        raise 0x06 .syncError ((parsedHeader s).sync.setWidth 32) (discardSlot k s)
      else if (parsedHeader s).pktsize < 16 then
        raise 0x06 .pktsizeError ((parsedHeader s).pktsize.setWidth 32) (discardSlot k s)
      else finish 0x06 ((discardSlot k s).setSlot k (parsedSlot (parsedHeader s))) :=
  rfl

theorem execParse_cases (k : Fin 16) (s : State) :
    (s.args.len ≠ 16 ∧
      exec (.parse k) s = .next ((discardSlot k s).setOutcome 0x06 .headerSizeError s.args.len)) ∨
    (s.args.len = 16 ∧ s.cfg.memSize < srcAddr s + 16 ∧
      exec (.parse k) s = .next ((discardSlot k s).setOutcome 0x06 .boundsError s.args.src)) ∨
    (s.args.len = 16 ∧ srcAddr s + 16 ≤ s.cfg.memSize ∧ (parsedHeader s).sync ≠ syncTriplet ∧
      exec (.parse k) s =
        .next ((discardSlot k s).setOutcome 0x06 .syncError ((parsedHeader s).sync.setWidth 32))) ∨
    (s.args.len = 16 ∧ srcAddr s + 16 ≤ s.cfg.memSize ∧ (parsedHeader s).sync = syncTriplet ∧
      (parsedHeader s).pktsize < 16 ∧
      exec (.parse k) s =
        .next ((discardSlot k s).setOutcome 0x06 .pktsizeError ((parsedHeader s).pktsize.setWidth 32))) ∨
    (s.args.len = 16 ∧ srcAddr s + 16 ≤ s.cfg.memSize ∧ (parsedHeader s).sync = syncTriplet ∧
      ¬ (parsedHeader s).pktsize < 16 ∧
      exec (.parse k) s = .next ((s.setSlot k (parsedSlot (parsedHeader s))).setOutcome 0x06 .ok 0)) := by
  have hset : (discardSlot k s).setSlot k (parsedSlot (parsedHeader s)) = s.setSlot k (parsedSlot (parsedHeader s)) := by
    simp [discardSlot, State.setSlot]
  by_cases hl : s.args.len = 16
  · by_cases h : srcAddr s + 16 ≤ s.cfg.memSize
    · by_cases hs : (parsedHeader s).sync = syncTriplet
      · by_cases hp : (parsedHeader s).pktsize < 16
        · exact .inr (.inr (.inr (.inl ⟨hl, h, hs, hp, by
            rw [execParse_eq, if_neg (not_not.mpr hl), if_neg (not_not.mpr h), if_neg (not_not.mpr hs), if_pos hp,
              raise_eq]⟩)))
        · exact .inr (.inr (.inr (.inr ⟨hl, h, hs, hp, by
            rw [execParse_eq, if_neg (not_not.mpr hl), if_neg (not_not.mpr h), if_neg (not_not.mpr hs), if_neg hp,
              hset, finish_eq]⟩)))
      · exact .inr (.inr (.inl ⟨hl, h, hs, by
          rw [execParse_eq, if_neg (not_not.mpr hl), if_neg (not_not.mpr h), if_pos hs, raise_eq]⟩))
    · exact .inr (.inl ⟨hl, Nat.not_le.mp h, by
        rw [execParse_eq, if_neg (not_not.mpr hl), if_pos h, raise_eq]⟩)
  · exact .inl ⟨hl, by rw [execParse_eq, if_pos hl, raise_eq]⟩

theorem execValidate_cases (k : Fin 16) (s : State) :
    ((s.slot k).state ≠ .headerParsed ∧
      exec (.validate k) s =
        .next (s.setOutcome 0x07 .stateError ((slotStateBits (s.slot k).state).setWidth 32))) ∨
    ((s.slot k).state = .headerParsed ∧ s.cfg.memSize < srcAddr s + srcLen s ∧
      exec (.validate k) s = .next (s.setOutcome 0x07 .boundsError s.args.src)) ∨
    ((s.slot k).state = .headerParsed ∧ srcAddr s + srcLen s ≤ s.cfg.memSize ∧
      recomputed k s ≠ (s.slot k).checksum ∧
      exec (.validate k) s =
        .next (((s.setAcc (recomputed k s)).setSlot k (failedSlot (s.slot k))).setOutcome 0x07 .checksumError
          ((recomputed k s).setWidth 32))) ∨
    ((s.slot k).state = .headerParsed ∧ srcAddr s + srcLen s ≤ s.cfg.memSize ∧
      recomputed k s = (s.slot k).checksum ∧
      exec (.validate k) s =
        .next (((s.setAcc (recomputed k s)).setSlot k
          (validatedSlot (s.slot k) s.args.src s.args.len)).setOutcome 0x07 .ok 0)) := by
  by_cases hs : (s.slot k).state = .headerParsed
  · by_cases h : InBounds s (srcAddr s) (srcLen s)
    · by_cases hc : recomputed k s = (s.slot k).checksum
      · exact .inr (.inr (.inr ⟨hs, h, hc, by simp [exec, execValidate, hs, h, hc, finish_eq, Instr.opcode]⟩))
      · exact .inr (.inr (.inl ⟨hs, h, hc, by simp [exec, execValidate, hs, h, hc, raise_eq, Instr.opcode]⟩))
    · exact .inr (.inl ⟨hs, Nat.not_le.mp h, by simp [exec, execValidate, hs, h, raise_eq, Instr.opcode]⟩)
  · exact .inl ⟨hs, by simp [exec, execValidate, hs, raise_eq, Instr.opcode]⟩

theorem exec_release (k : Fin 16) (s : State) :
    exec (.release k) s = .next ((discardSlot k s).setOutcome 0x08 .ok 0) := rfl

/-- Every command runs to completion: it answers a next state, whatever its operands. -/
theorem exec_is_next (i : Instr) (s : State) : ∃ t, exec i s = .next t := by
  cases i with
  | pack => rcases execPack_cases s with ⟨_, h⟩ | ⟨_, h⟩ <;> exact ⟨_, h⟩
  | unpack => rcases execUnpack_cases s with ⟨_, h⟩ | ⟨_, _, h⟩ | ⟨_, _, h⟩ <;> exact ⟨_, h⟩
  | csum => rw [exec_csum]; rcases checksumFrom_cases 0x03 s.args.seed s with ⟨_, h⟩ | ⟨_, h⟩ <;> exact ⟨_, h⟩
  | csumc => rw [exec_csumc]; rcases checksumFrom_cases 0x04 s.acc s with ⟨_, h⟩ | ⟨_, h⟩ <;> exact ⟨_, h⟩
  | build =>
    rcases execBuild_cases s with ⟨_, h⟩ | ⟨_, _, h⟩ | ⟨_, _, _, h⟩ | ⟨_, _, _, h⟩ <;> exact ⟨_, h⟩
  | parse k =>
    rcases execParse_cases k s with ⟨_, h⟩ | ⟨_, _, h⟩ | ⟨_, _, _, h⟩ | ⟨_, _, _, _, h⟩ | ⟨_, _, _, _, h⟩ <;>
      exact ⟨_, h⟩
  | validate k =>
    rcases execValidate_cases k s with ⟨_, h⟩ | ⟨_, _, h⟩ | ⟨_, _, _, h⟩ | ⟨_, _, _, h⟩ <;> exact ⟨_, h⟩
  | release k => exact ⟨_, exec_release k s⟩

end Sys2Proof.Machine
end

