-- ==== Sys2Proof/Laws/PerInstr.lean ====
section
/-! SUPPORT. A family of facts made for each command as syntax: what stands in the three fields of its word
(30_encoding.md R60 to R63), and which slot number makes it well formed. -/

namespace Sys2Proof.Laws.CommandWord

/-- The word of a command has its OPC in bits 7:0, the slot it names (or 0) in bits 11:8 and zeros above; and the command
exists on a block exactly when the slot it names does. -/
def Statement (i : Instr) : Prop :=
  opcField (encode i) = i.opcode ∧ slotField (encode i) = i.slotOf.getD 0 ∧ rsvField (encode i) = 0 ∧
  ∀ n : Nat, i.wf n = true ↔ ∀ k, i.slotOf = some k → k.val < n

/-- The three words of a slot command, for every slot number at once. -/
theorem slotted_fields : ∀ k : Fin 16, ∀ i ∈ [Instr.parse k, Instr.validate k, Instr.release k],
    opcField (encode i) = i.opcode ∧ slotField (encode i) = k ∧ rsvField (encode i) = 0 := by decide

theorem pack : Statement .pack := ⟨rfl, rfl, rfl, by simp [Instr.wf, Instr.slotOf]⟩

theorem unpack : Statement .unpack := ⟨rfl, rfl, rfl, by simp [Instr.wf, Instr.slotOf]⟩

theorem csum : Statement .csum := ⟨rfl, rfl, rfl, by simp [Instr.wf, Instr.slotOf]⟩

theorem csumc : Statement .csumc := ⟨rfl, rfl, rfl, by simp [Instr.wf, Instr.slotOf]⟩

theorem build : Statement .build := ⟨rfl, rfl, rfl, by simp [Instr.wf, Instr.slotOf]⟩

theorem parse (k : Fin 16) : Statement (.parse k) :=
  have h := slotted_fields k (.parse k) (by simp)
  ⟨h.1, h.2.1, h.2.2, by simp [Instr.wf, Instr.slotOf]⟩

theorem validate (k : Fin 16) : Statement (.validate k) :=
  have h := slotted_fields k (.validate k) (by simp)
  ⟨h.1, h.2.1, h.2.2, by simp [Instr.wf, Instr.slotOf]⟩

theorem release (k : Fin 16) : Statement (.release k) :=
  have h := slotted_fields k (.release k) (by simp)
  ⟨h.1, h.2.1, h.2.2, by simp [Instr.wf, Instr.slotOf]⟩

end Sys2Proof.Laws.CommandWord
end

