-- ==== Sys2Proof/Laws/Step.lean ====
section
/-! SUPPORT. What one step can do: one case lemma for step, and what a register write can do. -/

namespace Sys2Proof.Machine

/-- A register write that runs no command changes the ARG registers at most. -/
theorem writeReg_is_setArgs (r : Reg) (v : Word) (s : State) : ∃ a, writeReg r v s = s.setArgs a := by
  cases r <;> exact ⟨_, rfl⟩

/-- CMD is at offset 0 and nowhere else. -/
theorem regAt_eq_cmd {n : Nat} {off : BitVec 12} (h : regAt n off = some .cmd) : off = 0 := by
  unfold regAt at h
  split at h <;> first | cases h | skip
  · rename_i h0
    exact BitVec.eq_of_toNat_eq h0
  · unfold slotWindowAt at h
    split at h
    · simp at h
    · cases h

theorem regAt_zero (n : Nat) : regAt n 0 = some .cmd := rfl

/-- The state a host step starts from: its line taken off the host program, nothing returned yet. -/
def State.taken (rest : List HostStep) (s : State) : State := (s.setHost rest).setReply none

theorem registerAccess_next {size : Nat} {off : BitVec 12} {k : Host.Outcome State Fault Refusal} {t : State}
    (h : registerAccess size off k = .next t) : size = 4 ∧ off.toNat % 4 = 0 ∧ k = .next t := by
  unfold registerAccess at h
  split at h
  · cases h
  · split at h
    · cases h
    · exact ⟨by omega, by omega, h⟩

/-- Everything a step that answers a next state can have done. -/
theorem step_next_cases {s t : State} (h : step s = .next t) :
    (s.host = [] ∧ t = s) ∨
    (∃ off rest, s.host = .regRead 4 off :: rest ∧ off.toNat % 4 = 0 ∧
      t = (s.setHost rest).setReply (some (.word (readOffset s off)))) ∨
    (∃ w rest i, s.host = .regWrite 4 0 w :: rest ∧ decode s.cfg.numSlots w = .ok i ∧
      exec i (s.taken rest) = .next t) ∨
    (∃ w rest e, s.host = .regWrite 4 0 w :: rest ∧ decode s.cfg.numSlots w = .error e ∧
      t = (s.taken rest).setOutcome (opcField w) .illegalCommand w) ∨
    (∃ off v rest a, s.host = .regWrite 4 off v :: rest ∧ off ≠ 0 ∧ off.toNat % 4 = 0 ∧
      t = (s.taken rest).setArgs a) ∨
    (∃ a rest, s.host = .memRead a :: rest ∧ a < s.cfg.memSize ∧
      t = (s.setHost rest).setReply (some (.byte (Memory.read s.mem a)))) ∨
    (∃ a b rest, s.host = .memWrite a b :: rest ∧ a < s.cfg.memSize ∧
      t = (s.taken rest).setMem (Memory.write s.mem a b)) := by
  unfold step at h
  split at h
  · rename_i h0; exact .inl ⟨h0, next_inj h⟩
  · rename_i hd rest h0
    cases hd with
    | regRead size off =>
      obtain ⟨rfl, ha, hk⟩ := registerAccess_next h
      exact .inr (.inl ⟨off, rest, h0, ha, next_inj hk⟩)
    | regWrite size off v =>
      obtain ⟨rfl, ha, hk⟩ := registerAccess_next h
      by_cases hz : off = 0
      · subst hz
        change command v (s.taken rest) = .next t at hk
        unfold command at hk
        split at hk
        · rename_i i hi; exact .inr (.inr (.inl ⟨v, rest, i, h0, hi, hk⟩))
        · rename_i e he; exact .inr (.inr (.inr (.inl ⟨v, rest, e, h0, he, next_inj hk⟩)))
      · refine .inr (.inr (.inr (.inr (.inl ⟨off, v, rest, ?_⟩))))
        change writeOffset off v (s.taken rest) = .next t at hk
        unfold writeOffset at hk
        split at hk
        · rename_i hc; exact absurd (regAt_eq_cmd hc) hz
        · rename_i r _ _
          obtain ⟨a, hw⟩ := writeReg_is_setArgs r v (s.taken rest)
          exact ⟨a, h0, hz, ha, (next_inj hk).trans hw⟩
        · exact ⟨s.args, h0, hz, ha, next_inj hk⟩
    | memRead a =>
      simp only [hostStep] at h
      split at h
      · rename_i hb
        have hb' : a + 1 ≤ s.cfg.memSize := hb
        exact .inr (.inr (.inr (.inr (.inr (.inl ⟨a, rest, h0, by omega, next_inj h⟩)))))
      · cases h
    | memWrite a b =>
      simp only [hostStep] at h
      split at h
      · rename_i hb
        have hb' : a + 1 ≤ s.cfg.memSize := hb
        exact .inr (.inr (.inr (.inr (.inr (.inr ⟨a, b, rest, h0, by omega, next_inj h⟩)))))
      · cases h

end Sys2Proof.Machine
end

