-- ==== Sys2Proof/Laws/Wire.lean ====
section
/-! SUPPORT. The byte-order lemmas of the wire helpers: each assembly of bytes undoes the matching split, bit by bit. -/

namespace Sys2Proof.Machine

/-! ## Bits of the assembled values -/

theorem getLsbD_join {n m : Nat} (x : BitVec n) (y : BitVec m) (j : Nat) :
    (x ++ y).getLsbD j = if j < m then y.getLsbD j else x.getLsbD (j - m) := BitVec.getLsbD_append

theorem getLsbD_stamp (hi lo : Word) (j : Nat) :
    (hi ++ lo : Stamp).getLsbD j = if j < 32 then lo.getLsbD j else hi.getLsbD (j - 32) := getLsbD_join hi lo j

theorem getLsbD_be16 (b0 b1 : Byte) (j : Nat) :
    (be16 b0 b1).getLsbD j = if j < 8 then b1.getLsbD j else b0.getLsbD (j - 8) := getLsbD_join b0 b1 j

theorem getLsbD_word (b0 b1 b2 b3 : Byte) (j : Nat) :
    (b0 ++ b1 ++ b2 ++ b3 : Word).getLsbD j =
      if j < 8 then b3.getLsbD j else if j < 16 then b2.getLsbD (j - 8)
      else if j < 24 then b1.getLsbD (j - 16) else b0.getLsbD (j - 24) := by
  refine (getLsbD_join (b0 ++ b1 ++ b2) b3 j).trans ?_
  rw [getLsbD_join, getLsbD_join]
  split_ifs <;> first | omega | congr 1

/-- The timestamp's two halves are the two words of its bytes. -/
theorem be64_halves (b0 b1 b2 b3 b4 b5 b6 b7 : Byte) :
    be64 b0 b1 b2 b3 b4 b5 b6 b7 = (b0 ++ b1 ++ b2 ++ b3 : Word) ++ (b4 ++ b5 ++ b6 ++ b7 : Word) := by
  apply BitVec.eq_of_getLsbD_eq
  intro j _
  refine Eq.trans ?_ (getLsbD_stamp _ _ j).symm
  rw [getLsbD_word, getLsbD_word]
  refine (getLsbD_join (b0 ++ b1 ++ b2 ++ b3 ++ b4 ++ b5 ++ b6) b7 j).trans ?_
  rw [getLsbD_join, getLsbD_join, getLsbD_join, getLsbD_join, getLsbD_join, getLsbD_join]
  split_ifs <;> first | omega | congr 1

theorem getLsbD_byteOf {n : Nat} (v : BitVec n) (i j : Nat) (h : j < 8) :
    (byteOf v i).getLsbD j = v.getLsbD (8 * i + j) := by
  simp [byteOf, h]

/-! ## Halves of a timestamp -/

@[simp] theorem stampHi_join (hi lo : Word) : stampHi (hi ++ lo : Stamp) = hi := by
  apply BitVec.eq_of_getLsbD_eq
  intro j hj
  simp [stampHi, getLsbD_stamp, hj]

@[simp] theorem stampLo_join (hi lo : Word) : stampLo (hi ++ lo : Stamp) = lo := by
  apply BitVec.eq_of_getLsbD_eq
  intro j hj
  simp [stampLo, getLsbD_stamp, hj]

/-! ## Assembling the bytes of a value gives the value -/

@[simp] theorem be16_byteOf (v : Half) : be16 (byteOf v 1) (byteOf v 0) = v := by
  apply BitVec.eq_of_getLsbD_eq
  intro j hj
  rw [getLsbD_be16]
  split_ifs with h
  · rw [getLsbD_byteOf _ _ _ h]; congr 1; omega
  · rw [getLsbD_byteOf _ _ _ (by omega)]; congr 1; omega

@[simp] theorem be64_byteOf (v : Stamp) :
    be64 (byteOf v 7) (byteOf v 6) (byteOf v 5) (byteOf v 4) (byteOf v 3) (byteOf v 2) (byteOf v 1) (byteOf v 0) =
      v := by
  apply BitVec.eq_of_getLsbD_eq
  intro j hj
  rw [be64_halves]
  refine (getLsbD_stamp _ _ j).trans ?_
  rw [getLsbD_word, getLsbD_word]
  split_ifs <;> (rw [getLsbD_byteOf _ _ _ (by omega)]; congr 1; omega)

/-! ## The bytes of an assembled value are the bytes -/

@[simp] theorem byteOf_be16_high (b0 b1 : Byte) : byteOf (be16 b0 b1) 1 = b0 := by
  apply BitVec.eq_of_getLsbD_eq
  intro j hj
  rw [getLsbD_byteOf _ _ _ hj, getLsbD_be16, if_neg (by omega)]
  congr 1; omega

@[simp] theorem byteOf_be16_low (b0 b1 : Byte) : byteOf (be16 b0 b1) 0 = b1 := by
  apply BitVec.eq_of_getLsbD_eq
  intro j hj
  rw [getLsbD_byteOf _ _ _ hj, getLsbD_be16, if_pos (by omega)]
  congr 1; omega

/-- Byte `i` of a timestamp assembled from eight bytes, counting from the least significant. -/
theorem byteOf_be64 (b0 b1 b2 b3 b4 b5 b6 b7 : Byte) :
    byteOf (be64 b0 b1 b2 b3 b4 b5 b6 b7) 7 = b0 ∧ byteOf (be64 b0 b1 b2 b3 b4 b5 b6 b7) 6 = b1 ∧
    byteOf (be64 b0 b1 b2 b3 b4 b5 b6 b7) 5 = b2 ∧ byteOf (be64 b0 b1 b2 b3 b4 b5 b6 b7) 4 = b3 ∧
    byteOf (be64 b0 b1 b2 b3 b4 b5 b6 b7) 3 = b4 ∧ byteOf (be64 b0 b1 b2 b3 b4 b5 b6 b7) 2 = b5 ∧
    byteOf (be64 b0 b1 b2 b3 b4 b5 b6 b7) 1 = b6 ∧ byteOf (be64 b0 b1 b2 b3 b4 b5 b6 b7) 0 = b7 := by
  refine ⟨?_, ?_, ?_, ?_, ?_, ?_, ?_, ?_⟩ <;>
  · apply BitVec.eq_of_getLsbD_eq
    intro j hj
    rw [getLsbD_byteOf _ _ _ hj, be64_halves]
    refine (getLsbD_stamp _ _ _).trans ?_
    rw [getLsbD_word, getLsbD_word]
    split_ifs <;> first | omega | (congr 1; omega)

end Sys2Proof.Machine
end

