-- ==== Sys2Proof/Tests/Slice0.lean ====
section
/-! SUPPORT. Tests of single steps, their expected values from spec/95_test_vectors.md (the row is named beside each),
and for every obligation with hypotheses a witness that meets them, at boundary values. -/

namespace Sys2Proof.Tests

open Sys2Proof.Machine

/-! ## Small states -/

/-- Reset with other operand registers. -/
def withArgs (f : ArgRegs → ArgRegs) : State := State.reset.setArgs (f State.reset.args)

/-- Reset with ARG_SRC, ARG_LEN, and some bytes at an address. -/
def reading (src len : Word) (base : Nat) (bytes : List Byte) : State :=
  (withArgs fun a => { a with src := src, len := len }).setMem (Memory.writeBytes [] base bytes)

/-- What ends in a next state with a property. -/
def endsIn (o : Host.Outcome State Fault Refusal) (p : State → Bool) : Bool :=
  match o with
  | .next t => p t
  | .fault _ => false
  | .refused _ => false

/-- The next state of an outcome that has one. -/
def after (o : Host.Outcome State Fault Refusal) : State :=
  match o with
  | .next t => t
  | .fault _ => State.reset
  | .refused _ => State.reset

theorem exec_after (i : Instr) (s : State) : exec i s = .next (after (exec i s)) := by
  obtain ⟨t, h⟩ := exec_is_next i s
  rw [h]; rfl

/-- A write to CMD always ends in a next state. -/
theorem step_command {s : State} {w : Word} {rest : List HostStep} (h : s.host = .regWrite 4 0x000 w :: rest) :
    ∃ t, step s = .next t := by
  unfold step
  rw [h]
  change ∃ t, command w (s.taken rest) = .next t
  unfold command
  split
  · exact exec_is_next _ _
  · exact ⟨_, rfl⟩

/-- The header of vector B1. -/
def headerB1 : List Byte := [0xA3, 0x9D, 0x7A, 0x01, 0x00, 0x12, 0x00, 0xCD, 0x40, 0x93, 0x4A, 0, 0, 0, 0, 0]

/-- The slot vector S1 gives. -/
def slotS1 : Slot :=
  { state := .headerParsed, msgtype := 0x01, pktsize := 0x0012, checksum := 0x00CD, ts := 0x40934A0000000000,
    datasize := 2, pbase := 0, plen := 0,
    hdrbuf := #v[0xA3, 0x9D, 0x7A, 0x01, 0x00, 0x12, 0x00, 0x00, 0x40, 0x93, 0x4A, 0, 0, 0, 0, 0] }

/-- A state with some slot 0. -/
def holding (p : Slot) (s : State) : State := s.setSlot 0 p

/-- The operands of BUILD in the vectors B1 to B16. -/
def building (mt : Byte) (hi : Word) (src len dst : Word) (base : Nat) (bytes : List Byte) : State :=
  (withArgs fun a => { a with msgtype := mt, tsHi := hi, src := src, len := len, dst := dst }).setMem
    (Memory.writeBytes [] base bytes)

/-- A state about to perform one host step. -/
def hosting (h : HostStep) (s : State) : State := s.setHost [h]

/-! ## Well-formed commands -/

theorem test_wf_refuses_parse_slot_4_of_4 : (Instr.parse 4).wf 4 = false := by decide
theorem test_wf_refuses_validate_slot_15_of_4 : (Instr.validate 15).wf 4 = false := by decide
theorem test_wf_refuses_release_slot_1_of_1 : (Instr.release 1).wf 1 = false := by decide
theorem test_wf_takes_slot_3_of_4 : (Instr.parse 3).wf 4 && (Instr.validate 3).wf 4 && (Instr.release 3).wf 4 := by decide
theorem test_wf_takes_slotless : Instr.pack.wf 1 && Instr.unpack.wf 1 && Instr.csum.wf 1 && Instr.csumc.wf 1 &&
    Instr.build.wf 1 := by decide

/-! ## Decoding: words written out bit by bit, RSV 31:12, SLOT 11:8, OPC 7:0 (R60, R61, R70) -/

theorem test_decode_pack : decodeTableWord 32 0b00000000000000000000_0000_00000001 = some .pack := by decide
theorem test_decode_unpack : decodeTableWord 32 0b00000000000000000000_0000_00000010 = some .unpack := by decide
theorem test_decode_csum : decodeTableWord 32 0b00000000000000000000_0000_00000011 = some .csum := by decide
theorem test_decode_csumc : decodeTableWord 32 0b00000000000000000000_0000_00000100 = some .csumc := by decide
theorem test_decode_build : decodeTableWord 32 0b00000000000000000000_0000_00000101 = some .build := by decide
theorem test_decode_parse_3 : decodeTableWord 32 0b00000000000000000000_0011_00000110 = some (.parse 3) := by decide
theorem test_decode_validate_1 : decodeTableWord 32 0b00000000000000000000_0001_00000111 = some (.validate 1) := by decide
theorem test_decode_release_2 : decodeTableWord 32 0b00000000000000000000_0010_00001000 = some (.release 2) := by decide
/-- E12. -/
theorem test_decode_parse_4_of_16 : decode 16 0x00000406 = .ok (.parse 4) := by decide

/-- E3 to E11: the illegal words. -/
theorem test_decode_illegal :
    [0x00000000, 0x00000009, 0x000000FF, 0x00000101, 0x00000F05, 0x00000406, 0x00000F08, 0x00001006, 0x80000003].all
      (fun w => (decodeTableWord 32 w).isNone) = true := by decide

/-- E5 and E11: STATUS and ERRINFO after an illegal word. -/
theorem test_illegal_status :
    endsIn (step (State.reset.withFetchWord 32 0xFF)) (fun t => t.status == 0xFF38 && t.errinfo == 0xFF) = true ∧
    endsIn (step (State.reset.withFetchWord 32 0x80000003)) (fun t => t.status == 0x0338 && t.errinfo == 0x80000003) =
      true := by decide

/-! ## The commands -/

/-- H2. -/
theorem test_pack_h2 :
    endsIn (exec .pack (withArgs fun a => { a with
      dst := 0x40, msgtype := 0xAB, pktsize := 0x1234, checksum := 0xBEEF, tsHi := 0x01234567, tsLo := 0x89ABCDEF }))
      (fun t => t.status == 0x0100 && Memory.readBytes t.mem 0x40 16 ==
        [0xA3, 0x9D, 0x7A, 0xAB, 0x12, 0x34, 0xBE, 0xEF, 0x01, 0x23, 0x45, 0x67, 0x89, 0xAB, 0xCD, 0xEF]) = true := by
  decide

/-- H9. -/
theorem test_pack_h9 :
    endsIn (exec .pack (withArgs fun a => { a with dst := 0x1FFF1 }))
      (fun t => t.status == 0x0137 && t.errinfo == 0x1FFF1 && t.mem == []) = true := by decide

/-- H6. -/
theorem test_unpack_h6 :
    endsIn (exec .unpack (reading 0x100 16 0x100 headerB1))
      (fun t => t.status == 0x0200 && t.res == ⟨0xA39D7A, 0x01, 0x0012, 0x00CD, 0x40934A00, 0⟩) = true := by decide

/-- H10. -/
theorem test_unpack_h10 :
    endsIn (exec .unpack (reading 0xFFFFFFF8 16 0 [])) (fun t => t.status == 0x0237 && t.errinfo == 0xFFFFFFF8) =
      true := by decide

/-- K3. -/
theorem test_csum_k3 :
    endsIn (exec .csum ((reading 0x200 1 0x200 [0xFF]).setArgs { State.reset.args with
      src := 0x200, len := 1, seed := 0x1234 })) (fun t => t.acc == 0x12CB && t.status == 0x0300) = true := by decide

/-- K17. -/
theorem test_csum_k17 :
    endsIn (exec .csum (reading 0xFFFFFFFF 2 0 [])) (fun t => t.status == 0x0337 && t.errinfo == 0xFFFFFFFF) = true := by
  decide

/-- K7. -/
theorem test_csumc_k7 :
    endsIn (exec .csumc ((reading 0x302 1 0x302 [0x63]).setAcc 3)) (fun t => t.acc == 0x0060 && t.status == 0x0400) =
      true := by decide

/-- K18. -/
theorem test_csumc_k18 :
    endsIn (exec .csumc ((reading 0x1FFFF 2 0 []).setAcc 7))
      (fun t => t.acc == 7 && t.status == 0x0437 && t.errinfo == 0x1FFFF) = true := by decide

/-- B10: the destination overlaps the source. -/
theorem test_build_b10 :
    endsIn (exec .build (building 1 0x40934A00 0x1000 2 0x1000 0x1000 [0x41, 0x42]))
      (fun t => t.status == 0x0500 && t.acc == 0x00CD && t.res.checksum == 0x00CD &&
        Memory.readBytes t.mem 0x1000 18 == headerB1 ++ [0x41, 0x42]) = true := by decide

/-- B16: LENGTH comes before BOUNDS. -/
theorem test_build_b16 :
    endsIn (exec .build (building 1 0 0x1FFFF 0xFFFFFFFF 0x3000 0 []))
      (fun t => t.status == 0x0535 && t.errinfo == 0xFFFFFFFF && t.mem == []) = true := by decide

/-- S1. -/
theorem test_parse_s1 :
    endsIn (exec (.parse 0) (reading 0x100 16 0x100 headerB1)) (fun t => t.status == 0x0600 && t.slot 0 == slotS1) =
      true := by decide

/-- S2. -/
theorem test_parse_s2 :
    endsIn (exec (.parse 3) (reading 0x100 16 0x100 [0xA3, 0x9D, 0x7A, 0x05, 0x00, 0x0F]))
      (fun t => t.status == 0x0614 && t.errinfo == 0x0F && (t.slot 3).state == .empty) = true := by decide

/-- V1. -/
theorem test_validate_v1 :
    endsIn (exec (.validate 0) (holding slotS1 (reading 0x110 2 0x110 [0x41, 0x42])))
      (fun t => t.status == 0x0700 && t.acc == 0x00CD &&
        t.slot 0 == { slotS1 with state := .validated, pbase := 0x110, plen := 2 }) = true := by decide

/-- V2. -/
theorem test_validate_v2 :
    endsIn (exec (.validate 0) (holding slotS1 (reading 0x110 2 0x110 [0x41, 0x43])))
      (fun t => t.status == 0x0723 && t.errinfo == 0xCC && t.acc == 0x00CC &&
        t.slot 0 == { slotS1 with state := .failed }) = true := by decide

/-- M1. -/
theorem test_release_m1 :
    endsIn (exec (.release 0) (holding { slotS1 with state := .validated, pbase := 0x110, plen := 2 } State.reset))
      (fun t => t.status == 0x0800 && t.slot 0 == Slot.empty && t.slots.length == 4) = true := by decide

/-! ## The register interface -/

/-- RI1 to RI4, RI8, RI9. -/
theorem test_register_reads :
    [(0x080, 0x50430001), (0x084, 4), (0x088, 0x1FFFF), (0x000, 0), (0x05C, 0), (0x200, 0)].all
      (fun (r : BitVec 12 × Word) => endsIn (step (hosting (.regRead 4 r.1) State.reset))
        (fun t => t.reply == some (.word r.2))) = true := by decide

/-- RI5 to RI7 and H11. -/
theorem test_register_writes :
    endsIn (step (hosting (.regWrite 4 0x00C 0x1234) State.reset)) (fun t => readOffset t 0x00C == 0) = true ∧
    endsIn (step (hosting (.regWrite 4 0x004 0xFFFF) State.reset)) (fun t => readOffset t 0x004 == 0) = true ∧
    endsIn (step (hosting (.regWrite 4 0x01C 0xABCD1234) State.reset)) (fun t => readOffset t 0x01C == 0x1234) = true ∧
    endsIn (step (hosting (.regWrite 4 0x010 0x1FF) State.reset)) (fun t => readOffset t 0x010 == 0xFF) = true := by
  decide

/-- R41, R244: what is refused. -/
theorem test_refusals :
    step (hosting (.regRead 2 0x000) State.reset) = .refused .registerAccessNotWord ∧
    step (hosting (.regWrite 4 0x002 0) State.reset) = .refused .registerAccessUnaligned ∧
    step (hosting (.memRead 0x20000) State.reset) = .refused .memAddressOutside ∧
    step (hosting (.memWrite 0x20000 1) State.reset) = .refused .memAddressOutside := ⟨rfl, rfl, rfl, rfl⟩

/-- Writing 00 removes the entry, so that equal memories are equal data. -/
theorem test_memory_canonical :
    Memory.write (Memory.write (Memory.write [] 9 0x55) 3 0xAA) 9 0 = [(3, 0xAA)] := by decide

/-! ## Witnesses: for each obligation, states that meet its hypotheses, clause by clause -/

/-- NUM_SLOTS and MEM_SIZE at both ends of their ranges. -/
theorem witness_ResetReadsTheResetColumn :
    (⟨1, 1⟩ : Config).wf ∧ (⟨16, 2 ^ 32⟩ : Config).wf ∧ Config.reference.wf := by decide

theorem witness_ResetMeetsTheInvariant :
    Config.reference.wf ∧ memInv Config.reference.memSize [(0, 0xFF), (0x1FFFF, 0x55)] := by decide

/-- A state with a slot in every shape, and a command to run. -/
theorem witness_EveryStepKeepsTheInvariant :
    let s := ((((reading 0x110 2 0x110 [0x41, 0x42]).setSlot 0 slotS1).setSlot 1 { slotS1 with state := .failed }).setSlot
      2 { slotS1 with state := .validated, pbase := 0x1FFFE, plen := 2 }).setHost [.regWrite 4 0x000 0x007]
    s.inv ∧ ∃ t, step s = .next t := ⟨by decide, step_command rfl⟩

theorem witness_ConfigurationRegistersAreConstant :
    (⟨16, 2 ^ 32⟩ : Config).wf ∧
    (∃ t, step (State.reset.withFetchWord 32 5) = .next t) ∧
    (hosting (.regWrite 4 0x084 7) State.reset).host = .regWrite 4 0x084 7 :: [] :=
  ⟨by decide, step_command rfl, rfl⟩

/-- The first and the last slot of a block with 16 slots. -/
theorem witness_MappedOffsetsReadTheirRegisters :
    (State.resetWith ⟨16, 1⟩ []).slots[15]? = some Slot.empty ∧ (holding slotS1 State.reset).slots[0]? = some slotS1 ∧
    readOffset (holding slotS1 State.reset) 0x110 = 0x40934A00 := by decide

/-- A hole between registers, the end of a slot window, the first window that does not exist, and the last offset. -/
theorem witness_UnmappedOffsetsReadZeroAndIgnoreWrites :
    ∀ off ∈ ([0x034, 0x05C, 0x08C, 0x124, 0x1FC, 0x200, 0xFFC] : List (BitVec 12)),
      off ∉ ([0x000, 0x004, 0x008, 0x00C, 0x010, 0x014, 0x018, 0x01C, 0x020, 0x024, 0x028, 0x02C, 0x030,
            0x040, 0x044, 0x048, 0x04C, 0x050, 0x054, 0x080, 0x084, 0x088] : List (BitVec 12)) ∧
      (∀ k < State.reset.cfg.numSlots, ∀ j ≤ 8, off.toNat ≠ 0x100 + 0x40 * k + 4 * j) ∧ off.toNat % 4 = 0 ∧
      (hosting (.regRead 4 off) State.reset).host = .regRead 4 off :: [] ∧
      (hosting (.regWrite 4 off 1) State.reset).host = .regWrite 4 off 1 :: [] := by decide

theorem witness_RegisterAccessesFollowTheirAccessKind :
    ((0x028 : BitVec 12).toNat % 4 = 0 ∧ (hosting (.regRead 4 0x028) State.reset).host = .regRead 4 0x028 :: []) ∧
    (hosting (.regWrite 4 0x010 0x1FF) State.reset).host = .regWrite 4 0x010 0x1FF :: [] ∧
    ((0x00C : BitVec 12).toNat % 4 = 0 ∧
      (0x00C : BitVec 12) ∉ ([0x000, 0x010, 0x014, 0x018, 0x01C, 0x020, 0x024, 0x028, 0x02C, 0x030] : List (BitVec 12)) ∧
      (hosting (.regWrite 4 0x00C 1) State.reset).host = .regWrite 4 0x00C 1 :: []) := by decide

/-- Host steps of both kinds: taken and refused. -/
theorem witness_OnlyAccessesOutsideTheInterfaceAreRefused :
    (HostStep.regRead 4 0xFFC).accepted 0x20000 ∧ ¬ (HostStep.regRead 4 0xFFE).accepted 0x20000 ∧
    (HostStep.regWrite 4 0 1).accepted 0x20000 ∧ ¬ (HostStep.regWrite 1 0 1).accepted 0x20000 ∧
    (HostStep.memRead 0x1FFFF).accepted 0x20000 ∧ ¬ (HostStep.memRead 0x20000).accepted 0x20000 ∧
    (HostStep.memWrite 0 1).accepted 0x20000 ∧ ¬ (HostStep.memWrite 0x20000 1).accepted 0x20000 := by decide

theorem witness_HostMemoryAccessesTouchOneByte :
    0x1FFFF < State.reset.cfg.memSize ∧
    (hosting (.memWrite 0x1FFFF 0x5A) State.reset).host = .memWrite 0x1FFFF 0x5A :: [] ∧
    (hosting (.memRead 0x1FFFF) State.reset).host = .memRead 0x1FFFF :: [] := by decide

theorem witness_CanonicalMemoriesThatReadAlikeAreEqual :
    let m := Memory.write (Memory.write [] 5 1) 3 2
    let m' := Memory.write (Memory.write [] 3 2) 5 1
    m.wf ∧ m'.wf ∧ ∀ a, Memory.read m a = Memory.read m' a := ⟨by decide, by decide, fun _ => rfl⟩

theorem witness_StepRunsTheDecodedCommand :
    (hosting (.regWrite 4 0x000 0x306) State.reset).host = .regWrite 4 0x000 0x306 :: [] ∧
    decode State.reset.cfg.numSlots 0x306 = .ok (.parse 3) ∧
    (hosting (.regRead 4 0x000) State.reset).host = .regRead 4 0x000 :: [] := ⟨rfl, by decide, rfl⟩

theorem witness_WrittenOutWordsDecode : (3 : Fin 16).val < 4 ∧ (15 : Fin 16).val < 16 := by decide

/-- The hypothesis of the obligation about illegal words, on the reference block. -/
abbrev Illegal (w : Word) : Prop :=
  w.toNat % 256 = 0 ∨ 9 ≤ w.toNat % 256 ∨ 4096 ≤ w.toNat ∨ (w.toNat % 256 ≤ 5 ∧ w.toNat / 256 % 16 ≠ 0) ∨
    (6 ≤ w.toNat % 256 ∧ State.reset.cfg.numSlots ≤ w.toNat / 256 % 16)

/-- Each clause of the hypothesis at a boundary: OPC 0x00 and 0xFF and 0x09, RSV bit 12, SLOT on a command without one,
SLOT = NUM_SLOTS. -/
theorem witness_IllegalWordsRaiseAndChangeNothingElse :
    (hosting (.regWrite 4 0x000 0) State.reset).host = .regWrite 4 0x000 0 :: [] ∧
    (∀ w ∈ ([0x00, 0x09, 0xFF, 0x1006, 0x80000003, 0x101, 0xF05, 0x406, 0xF08] : List Word), Illegal w) ∧
    (∀ w ∈ ([0x308, 0x05] : List Word), ¬ Illegal w) := by
  simp [Illegal, hosting, State.reset, State.resetWith, Config.reference]

/-- H8 and H9. -/
theorem witness_PackSerializesTheHeader :
    (let s := withArgs fun a => { a with dst := 0x1FFF0 }; dstAddr s + 16 ≤ s.cfg.memSize) ∧
    (let s := withArgs fun a => { a with dst := 0x1FFF1 }; s.cfg.memSize < dstAddr s + 16) := by decide

theorem witness_UnpackDeserializesTheHeader :
    (let s := reading 0 17 0 []; s.args.len ≠ 16) ∧
    (let s := reading 0x1FFF1 16 0 []; s.args.len = 16 ∧ s.cfg.memSize < srcAddr s + 16) ∧
    (let s := reading 0x1FFF0 16 0 []; s.args.len = 16 ∧ srcAddr s + 16 ≤ s.cfg.memSize) := by decide

theorem witness_PackThenUnpackRoundTrips :
    let s := withArgs fun a => { a with dst := 0x1FFF0, msgtype := 7 }
    let t := after (exec .pack s)
    let u := t.setArgs { t.args with src := 0x1FFF0, len := 16 }
    (dstAddr s + 16 ≤ s.cfg.memSize ∧ exec .pack s = .next t ∧ u.cfg = s.cfg ∧ sameBytes t.mem u.mem (dstAddr s) 16 ∧
      u.args.src = s.args.dst ∧ u.args.len = 16) ∧
    (slotS1.hdrbuf[0] = 0xA3 ∧ slotS1.hdrbuf[1] = 0x9D ∧ slotS1.hdrbuf[2] = 0x7A) :=
  ⟨⟨by decide, exec_after _ _, by decide, fun _ _ _ => rfl, by decide, rfl⟩, by decide⟩

/-- K13 and K14. -/
theorem witness_CsumFoldsFromTheSeed :
    (let s := reading 0x20000 0 0 []; srcAddr s + srcLen s ≤ s.cfg.memSize) ∧
    (let s := reading 0x20001 0 0 []; s.cfg.memSize < srcAddr s + srcLen s) := by decide

/-- K15 and K16, for CSUMC. -/
theorem witness_CsumcFoldsFromTheAccumulator :
    (let s := reading 0x1FFFF 1 0 []; srcAddr s + srcLen s ≤ s.cfg.memSize) ∧
    (let s := reading 0x1FFFF 2 0 []; s.cfg.memSize < srcAddr s + srcLen s) := by decide

theorem witness_FoldObeysItsLaws :
    let A : List Byte := [1, 2]
    A.Perm [2, 1] ∧ (0 < A.length ∧ 1 < A.length ∧ 0 ≠ 1 ∧ 7 < 8) ∧ fold A 0 = 3 ∧ fold [2, 1] 0 = 3 := by decide

/-- A split at the end of a range that ends at MEM_SIZE, and one at its start. -/
theorem witness_SplitChecksumEqualsWholeChecksum :
    let s := reading 0x1FFFE 0 0 []
    s.cfg.wf ∧ (srcAddr s + (2 + 0) ≤ s.cfg.memSize ∧ 2 + 0 < 2 ^ 32) ∧
      (srcAddr s + (0 + 2) ≤ s.cfg.memSize ∧ 0 + 2 < 2 ^ 32) := by decide

/-- Lengths 65520 and 65519; B14, B13, B12. -/
theorem witness_BuildAssemblesThePacket :
    (let s := building 1 0 0 65520 0 0 []; 65519 < srcLen s) ∧
    (let s := building 1 0 0x1FFFF 2 0 0 []; srcLen s ≤ 65519 ∧ s.cfg.memSize < srcAddr s + srcLen s) ∧
    (let s := building 1 0 0 2 0x1FFEF 0 []; srcLen s ≤ 65519 ∧ srcAddr s + srcLen s ≤ s.cfg.memSize ∧
      s.cfg.memSize < dstAddr s + (16 + srcLen s)) ∧
    (let s := building 1 0 0 2 0x1FFEE 0 []; srcLen s ≤ 65519 ∧ srcAddr s + srcLen s ≤ s.cfg.memSize ∧
      dstAddr s + (16 + srcLen s) ≤ s.cfg.memSize) ∧
    (let s := building 4 0 0 65519 0x10001 0 []; srcLen s ≤ 65519 ∧ srcAddr s + srcLen s ≤ s.cfg.memSize ∧
      dstAddr s + (16 + srcLen s) ≤ s.cfg.memSize) := by decide

/-- B10, whose ranges overlap. -/
theorem witness_PatchInPlaceBuildsTheSamePacket :
    let s := building 1 0x40934A00 0x1000 2 0x1000 0x1000 [0x41, 0x42]
    srcLen s ≤ 65519 ∧ srcAddr s + srcLen s ≤ s.cfg.memSize ∧ dstAddr s + (16 + srcLen s) ≤ s.cfg.memSize := by decide

/-- The largest packet. -/
theorem witness_BuiltPacketFoldsToZero :
    let s := building 4 0x3FF00000 0 65519 0x10001 0 [0x5A]
    srcLen s ≤ 65519 ∧ srcAddr s + srcLen s ≤ s.cfg.memSize ∧ dstAddr s + (16 + srcLen s) ≤ s.cfg.memSize := by decide

theorem witness_ComputedChecksumsFitTheLowByte :
    (let s := building 1 0x40934A00 0x200 2 0 0x200 [0x41, 0x42]
     exec .build s = .next (after (exec .build s)) ∧ codeField (after (exec .build s)).status = 0) ∧
    (let s := holding slotS1 (reading 0x110 2 0x110 [0x41, 0x42])
     exec (.validate 0) s = .next (after (exec (.validate 0) s)) ∧
       codeField (after (exec (.validate 0) s)).status = 0) ∧
    (let s := holding slotS1 (reading 0x110 2 0x110 [0x41, 0x43])
     exec (.validate 0) s = .next (after (exec (.validate 0) s)) ∧
       codeField (after (exec (.validate 0) s)).status = 3) :=
  ⟨⟨exec_after _ _, by decide⟩, ⟨exec_after _ _, by decide⟩, ⟨exec_after _ _, by decide⟩⟩

theorem witness_BuildRunsFromReset : 16 ≤ Config.reference.memSize ∧ 16 ≤ (⟨1, 16⟩ : Config).memSize := by decide

/-- The five clauses: ARG_LEN 17, S8, S6, S2 and S4 (pktsize 15 and 16). -/
theorem witness_ParseFillsTheSlot :
    let b := fun (s : State) i => Memory.read s.mem (srcAddr s + i)
    (3 : Fin 16).val < State.reset.slots.length ∧
    (let s := reading 0x100 17 0x100 headerB1; s.args.len ≠ 16) ∧
    (let s := reading 0x1FFF1 16 0 []; s.args.len = 16 ∧ s.cfg.memSize < srcAddr s + 16) ∧
    (let s := reading 0x1FFF0 16 0x1FFF0 [0xA2, 0x9D, 0x7A, 0x01]; s.args.len = 16 ∧ srcAddr s + 16 ≤ s.cfg.memSize ∧
      ¬ (b s 0 = 0xA3 ∧ b s 1 = 0x9D ∧ b s 2 = 0x7A)) ∧
    (let s := reading 0x100 16 0x100 [0xA3, 0x9D, 0x7A, 0x05, 0x00, 0x0F]; s.args.len = 16 ∧
      srcAddr s + 16 ≤ s.cfg.memSize ∧ b s 0 = 0xA3 ∧ b s 1 = 0x9D ∧ b s 2 = 0x7A ∧ (b s 4 ++ b s 5).toNat < 16) ∧
    (let s := reading 0x100 16 0x100 [0xA3, 0x9D, 0x7A, 0x05, 0x00, 0x10, 0x12, 0x34]; s.args.len = 16 ∧
      srcAddr s + 16 ≤ s.cfg.memSize ∧ b s 0 = 0xA3 ∧ b s 1 = 0x9D ∧ b s 2 = 0x7A ∧ 16 ≤ (b s 4 ++ b s 5).toNat) := by
  decide

theorem witness_StoredHeaderIsTheZeroedHeader :
    let s := reading 0x100 16 0x100 headerB1
    (0 : Fin 16).val < s.slots.length ∧ exec (.parse 0) s = .next (after (exec (.parse 0) s)) ∧
      codeField (after (exec (.parse 0) s)).status = 0 := ⟨by decide, exec_after _ _, by decide⟩

/-- The four clauses: V7, V5, V2 and V1. -/
theorem witness_ValidateComparesTheChecksum :
    let c := fun s : State => fold (Memory.readBytes s.mem (srcAddr s) (srcLen s)) (fold slotS1.hdrbuf.toList 0)
    (let s := holding { slotS1 with state := .validated } State.reset
     s.slots[(0 : Fin 16).val]? = some { slotS1 with state := .validated } ∧
       ({ slotS1 with state := .validated } : Slot).state ≠ .headerParsed) ∧
    (let s := holding slotS1 (reading 0x1FFFF 2 0 [])
     s.slots[(0 : Fin 16).val]? = some slotS1 ∧ slotS1.state = .headerParsed ∧
       s.cfg.memSize < srcAddr s + srcLen s) ∧
    (let s := holding slotS1 (reading 0x110 2 0x110 [0x41, 0x43])
     s.slots[(0 : Fin 16).val]? = some slotS1 ∧ srcAddr s + srcLen s ≤ s.cfg.memSize ∧ c s ≠ slotS1.checksum) ∧
    (let s := holding slotS1 (reading 0x110 2 0x110 [0x41, 0x42])
     s.slots[(0 : Fin 16).val]? = some slotS1 ∧ srcAddr s + srcLen s ≤ s.cfg.memSize ∧ c s = slotS1.checksum) := by
  decide

/-- V4: the payload of another length, at the end of MEM. -/
theorem witness_ValidateSucceedsIffTheLowByteMatches :
    let s := holding slotS1 (reading 0x1FFFD 3 0x1FFFD [0x41, 0x42, 0x00])
    s.slots[(0 : Fin 16).val]? = some slotS1 ∧ slotS1.state = .headerParsed ∧
      srcAddr s + srcLen s ≤ s.cfg.memSize := by decide

/-- One command in each row of the table; an illegal word that names a slot; a step that is no CMD write. -/
theorem witness_SlotsMoveOnlyAsTheTransitionTableSays :
    (let s := holding slotS1 (reading 0x110 2 0x110 [0x41, 0x42])
     (0 : Fin 16).val < s.slots.length ∧
     (∀ i : Instr, exec i s = .next (after (exec i s))) ∧
     codeField (after (exec (.parse 0) s)).status = 1 ∧ codeField (after (exec (.validate 0) s)).status = 0 ∧
     codeField (after (exec (.validate 1) s)).status = 6 ∧ codeField (after (exec (.release 0) s)).status = 0 ∧
     Instr.csum.slotOf ≠ some 0 ∧ (Instr.parse 1).slotOf ≠ some 0) ∧
    (decode State.reset.cfg.numSlots 0x406 = .error .noSuchSlot ∧
      ∃ t, command 0x406 State.reset = .next t) ∧
    ((∀ w rest, (hosting (.memWrite 5 1) State.reset).host ≠ .regWrite 4 0x000 w :: rest) ∧
      ∃ t, step (hosting (.memWrite 5 1) State.reset) = .next t) := by
  refine ⟨⟨by decide, fun i => exec_after i _, by decide, by decide, by decide, by decide, by decide, by decide⟩,
    ⟨by decide, ⟨_, rfl⟩⟩, ⟨?_, ⟨_, rfl⟩⟩⟩
  intro w rest h
  simp [hosting] at h

/-- Another state that agrees on slot 0 only: another slot 1, another ACC. -/
theorem witness_SlotCommandsAreIndependentOfOtherSlots :
    let s := holding slotS1 (reading 0x110 2 0x110 [0x41, 0x42])
    let u := (s.setSlot 1 slotS1).setAcc 9
    (0 : Fin 16).val < s.slots.length ∧ (0 : Fin 16).val < u.slots.length ∧ u.slot 0 = s.slot 0 ∧
      u.args.src = s.args.src ∧ u.args.len = s.args.len ∧ u.cfg.memSize = s.cfg.memSize ∧
      (∀ x, Memory.read u.mem x = Memory.read s.mem x) ∧ u.slots ≠ s.slots :=
  ⟨by decide, by decide, by decide, by decide, by decide, by decide, fun _ => rfl, by decide⟩

/-- The L1-1 packet, and all the states between the three commands. -/
theorem witness_BuildParseValidateRoundTrips :
    let s := building 1 0x40934A00 0x200 2 0 0x200 [0x41, 0x42]
    let t := after (exec .build s)
    let u := t.setArgs { t.args with src := 0, len := 16 }
    let v := after (exec (.parse 0) u)
    let w := v.setArgs { v.args with src := 16, len := 2 }
    (s.cfg.wf ∧ (0 : Fin 16).val < s.slots.length ∧ srcLen s ≤ 65519 ∧ srcAddr s + srcLen s ≤ s.cfg.memSize ∧
      dstAddr s + (16 + srcLen s) ≤ s.cfg.memSize) ∧
    (u.cfg = s.cfg ∧ (0 : Fin 16).val < u.slots.length ∧ sameBytes t.mem u.mem (dstAddr s) (16 + srcLen s) ∧
      u.args.src = s.args.dst ∧ u.args.len = 16) ∧
    (w.cfg = s.cfg ∧ (0 : Fin 16).val < w.slots.length ∧ w.slot 0 = v.slot 0 ∧
      w.args.src = s.args.dst + 16 ∧ w.args.len = (v.slot 0).datasize.setWidth 32) :=
  ⟨by decide, ⟨by decide, by decide, fun _ _ _ => rfl, by decide, by decide⟩, by decide⟩

/-- The last bit of the L1-1 packet. -/
theorem witness_SingleBitCorruptionNeverValidates :
    let s := building 1 0x40934A00 0x200 2 0 0x200 [0x41, 0x42]
    s.cfg.wf ∧ (3 : Fin 16).val < s.slots.length ∧ srcLen s ≤ 65519 ∧ srcAddr s + srcLen s ≤ s.cfg.memSize ∧
      dstAddr s + (16 + srcLen s) ≤ s.cfg.memSize ∧ 17 < 16 + srcLen s ∧ 7 < 8 := by decide

/-- The flips of the table in 2.6: byte 5, bits 4 (pktsize 0x02) and 1 (pktsize 0x10). -/
theorem witness_SingleBitCorruption_pktsize :
    (0x00#8 ++ (0x12#8 ^^^ 1#8 <<< 4)).toNat < 16 ∧ ¬ (0x00#8 ++ (0x12#8 ^^^ 1#8 <<< 1)).toNat < 16 := by decide

theorem witness_EveryCmdWriteReportsStatus :
    (hosting (.regWrite 4 0x000 0xFF) State.reset).host = .regWrite 4 0x000 0xFF :: [] ∧
    (∀ w rest, (hosting (.regRead 4 0x004) State.reset).host ≠ .regWrite 4 0x000 w :: rest) ∧
    ∃ t, step (hosting (.regRead 4 0x004) State.reset) = .next t := by
  refine ⟨rfl, ?_, ⟨_, rfl⟩⟩
  intro w rest h
  simp [hosting] at h

/-- An error of each kind that changes something. -/
theorem witness_ErrorsArePrecise :
    let s := holding slotS1 (reading 0x110 2 0x110 [0x41, 0x43])
    (∀ i : Instr, exec i s = .next (after (exec i s))) ∧ codeField (after (exec .unpack s)).status ≠ 0 ∧
      codeField (after (exec (.parse 0) s)).status ≠ 0 ∧ codeField (after (exec (.validate 0) s)).status = 3 :=
  ⟨fun i => exec_after i _, by decide, by decide, by decide⟩

theorem witness_BoundsErrorsNameTheOperand :
    (∀ (i : Instr) (s : State), exec i s = .next (after (exec i s))) ∧
    codeField (after (exec .build (building 1 0 0 2 0x1FFEE 0 []))).status = 0 ∧
    codeField (after (exec .build (building 1 0 0 2 0x1FFEF 0 []))).status = 7 ∧
    codeField (after (exec .build (building 1 0 0x1FFFF 2 0x1FFEF 0 []))).status = 7 :=
  ⟨exec_after, by decide, by decide, by decide⟩

theorem witness_RegistersChangeOnlyByTheirCommands :
    (∀ (i : Instr) (s : State), exec i s = .next (after (exec i s))) ∧
    (Instr.pack ≠ .csum ∧ Instr.pack ≠ .build ∧ (∀ k, Instr.pack ≠ .validate k) ∧ Instr.pack.slotOf = none) ∧
    (∀ w rest, (hosting (.regWrite 4 0x028 5) State.reset).host ≠ .regWrite 4 0x000 w :: rest) ∧
    ∃ t, step (hosting (.regWrite 4 0x028 5) State.reset) = .next t := by
  refine ⟨exec_after, ⟨by decide, by decide, by decide, by decide⟩, ?_, ⟨_, rfl⟩⟩
  intro w rest h
  simp [hosting] at h

theorem witness_OnlyCsumcReadsTheAccumulator :
    (Instr.validate 0) ≠ .csumc ∧ exec (.validate 0) (holding slotS1 State.reset) =
      .next (after (exec (.validate 0) (holding slotS1 State.reset))) := ⟨by decide, exec_after _ _⟩

/-- Other values in the two ARG registers BUILD does not read. -/
theorem witness_CommandsReadOnlyTheirOperands :
    let s := building 1 0x40934A00 0x200 2 0 0x200 [0x41, 0x42]
    let a : ArgRegs := { s.args with pktsize := 0xFFFF, checksum := 0x1234, seed := 9 }
    exec .build s = .next (after (exec .build s)) ∧ a ≠ s.args ∧
      (a.msgtype = s.args.msgtype ∧ a.tsHi = s.args.tsHi ∧ a.tsLo = s.args.tsLo ∧
        a.src = s.args.src ∧ a.len = s.args.len ∧ a.dst = s.args.dst) := ⟨exec_after _ _, by decide, by decide⟩

theorem witness_CommandsReadNeitherStatusNorResults :
    exec .unpack (reading 0x100 16 0x100 headerB1) = .next (after (exec .unpack (reading 0x100 16 0x100 headerB1))) :=
  exec_after _ _

/-- Another memory, which differs just outside the range read. -/
theorem witness_CommandsAccessOnlyTheirMemRanges :
    let s := building 1 0 0x200 2 0x300 0x200 [0x41, 0x42]
    let m := Memory.write s.mem 0x202 0x99
    exec .build s = .next (after (exec .build s)) ∧
      sameBytes s.mem m (readRange .build s).1 (readRange .build s).2 := by
  refine ⟨exec_after _ _, fun x _ h => Memory.read_write_other _ _ _ ?_⟩
  change x < 0x200 + 2 at h
  omega

/-- A program with an illegal word and an error in it. -/
theorem witness_AcceptedHostProgramsNeverStop :
    (State.reset.setHost [.regWrite 4 0x000 0xFFFFFFFF, .regWrite 4 0x02C 17, .regWrite 4 0x000 0x006,
      .memWrite 0x1FFFF 1, .memRead 0, .regRead 4 0xFFC]).safe := by
  intro h hm
  simp only [State.setHost_host, List.mem_cons, List.not_mem_nil, or_false] at hm
  rcases hm with rfl | rfl | rfl | rfl | rfl | rfl <;> decide

theorem witness_RunsEndWithTheirLastHostStep :
    let s := State.reset.setHost [.regRead 4 0x080]
    Sys2Proof.core.run s.host.length s = .next (after (step s)) := rfl

theorem witness_PseudoInstructionsRunTheirExpansion : (3 : Fin 16).val < State.reset.cfg.numSlots := by decide

end Sys2Proof.Tests
end

section
/-! What a command, a register access and a host step can do, and the statements on the register interface. -/

namespace Sys2Proof.Machine

/-! ## The command a word decodes to -/

theorem decodePlain_eq_ok {slot : Fin 16} {i j : Instr} : decodePlain slot j = .ok i ↔ slot = 0 ∧ j = i := by
  by_cases h : slot = 0 <;> simp [decodePlain, h]

theorem decodeSlotted_eq_ok {n : Nat} {slot : Fin 16} {i j : Instr} :
    decodeSlotted n slot j = .ok i ↔ slot.val < n ∧ j = i := by
  by_cases h : slot.val < n <;> simp [decodeSlotted, h]

/-- The fields of a word that decodes are those of the command it decodes to, and the block has that command (R60 to
R63). -/
theorem fields_of_decode_ok {n : Nat} {w : Word} {i : Instr} (h : decode n w = .ok i) :
    rsvField w = 0 ∧ opcField w = i.opcode ∧ slotField w = i.slotOf.getD 0 ∧ i.wf n = true := by
  unfold decode at h
  split at h
  · cases h
  · rename_i hrsv
    refine ⟨not_not.mp hrsv, ?_⟩
    split at h
    case h_9 => cases h
    case h_1 | h_2 | h_3 | h_4 | h_5 =>
      obtain ⟨hslot, rfl⟩ := decodePlain_eq_ok.mp h
      exact ⟨BitVec.eq_of_toNat_eq ‹_›, hslot, rfl⟩
    case h_6 | h_7 | h_8 =>
      obtain ⟨hslot, rfl⟩ := decodeSlotted_eq_ok.mp h
      exact ⟨BitVec.eq_of_toNat_eq ‹_›, rfl, decide_eq_true hslot⟩

/-! ## How a command ends -/

/-- `t` is `s` after a command with LASTOP `op`: STATUS and ERRINFO report one outcome, with ERRINFO 0 on success (R23),
and besides them ACC, RES, the slots and MEM are all that may differ. -/
def EndsWithOutcome (op : Byte) (s t : State) : Prop :=
  ∃ acc res slots mem c info, (c = .ok → info = 0) ∧
    t = State.setOutcome op c info { s with acc := acc, res := res, slots := slots, mem := mem }

theorem exec_endsWithOutcome (i : Instr) (s : State) : ∃ t, exec i s = .next t ∧ EndsWithOutcome i.opcode s t := by
  cases i with
  | pack =>
    rcases execPack_cases s with ⟨_, h⟩ | ⟨_, h⟩ <;> exact ⟨_, h, _, _, _, _, _, _, by simp, rfl⟩
  | unpack =>
    rcases execUnpack_cases s with ⟨_, h⟩ | ⟨_, _, h⟩ | ⟨_, _, h⟩ <;> exact ⟨_, h, _, _, _, _, _, _, by simp, rfl⟩
  | csum =>
    rcases checksumFrom_cases 0x03 s.args.seed s with ⟨_, h⟩ | ⟨_, h⟩ <;>
      exact ⟨_, h, _, _, _, _, _, _, by simp, rfl⟩
  | csumc =>
    rcases checksumFrom_cases 0x04 s.acc s with ⟨_, h⟩ | ⟨_, h⟩ <;> exact ⟨_, h, _, _, _, _, _, _, by simp, rfl⟩
  | build =>
    rcases execBuild_cases s with ⟨_, h⟩ | ⟨_, _, h⟩ | ⟨_, _, _, h⟩ | ⟨_, _, _, h⟩ <;>
      exact ⟨_, h, _, _, _, _, _, _, by simp, rfl⟩
  | parse k =>
    rcases execParse_cases k s with ⟨_, h⟩ | ⟨_, _, h⟩ | ⟨_, _, _, h⟩ | ⟨_, _, _, _, h⟩ | ⟨_, _, _, _, h⟩ <;>
      exact ⟨_, h, _, _, _, _, _, _, by simp, rfl⟩
  | validate k =>
    rcases execValidate_cases k s with ⟨_, h⟩ | ⟨_, _, h⟩ | ⟨_, _, _, h⟩ | ⟨_, _, _, h⟩ <;>
      exact ⟨_, h, _, _, _, _, _, _, by simp, rfl⟩
  | release k => exact ⟨_, exec_release k s, _, _, _, _, _, _, by simp, rfl⟩

/-- A command keeps the configuration (R17). -/
theorem exec_cfg {i : Instr} {s t : State} (h : exec i s = .next t) : t.cfg = s.cfg := by
  obtain ⟨u, hu, _, _, _, _, _, _, _, rfl⟩ := exec_endsWithOutcome i s
  rw [next_inj (hu.symm.trans h)]
  rfl

/-- Every word written to CMD, legal or not, ends with an outcome whose LASTOP is its OPC field (R21, R64). -/
theorem command_endsWithOutcome (w : Word) (s : State) :
    ∃ t, command w s = .next t ∧ EndsWithOutcome (opcField w) s t := by
  unfold command
  split
  · rename_i i hi
    obtain ⟨_, hop, _, _⟩ := fields_of_decode_ok hi
    exact hop ▸ exec_endsWithOutcome i s
  · exact ⟨_, raise_eq _ _ _ _, _, _, _, _, _, _, by simp, rfl⟩

/-! ## The register map -/

theorem slotRegOffset_of_slotRegAt {place : Nat} {r : SlotReg} (h : slotRegAt place = some r) :
    slotRegOffset r = place := by
  unfold slotRegAt at h
  split at h <;> cases h <;> rfl

/-- The registers of a slot's window are the words 0 to 8 of it (R19). -/
theorem slotRegOffset_eq_word (r : SlotReg) : ∃ j ≤ 8, slotRegOffset r = 4 * j := by
  cases r with
  | state => exact ⟨0, by decide, rfl⟩
  | msgtype => exact ⟨1, by decide, rfl⟩
  | pktsize => exact ⟨2, by decide, rfl⟩
  | checksum => exact ⟨3, by decide, rfl⟩
  | tsHi => exact ⟨4, by decide, rfl⟩
  | tsLo => exact ⟨5, by decide, rfl⟩
  | datasize => exact ⟨6, by decide, rfl⟩
  | pbase => exact ⟨7, by decide, rfl⟩
  | plen => exact ⟨8, by decide, rfl⟩

theorem regOffset_of_slotWindowAt {n off : Nat} {r : Reg} (h : slotWindowAt n off = some r) :
    ∃ k q, r = .slot k q ∧ k < n ∧ regOffset r = off := by
  unfold slotWindowAt at h
  split at h
  · rename_i hwin
    obtain ⟨q, hq, rfl⟩ := Option.map_eq_some_iff.mp h
    have hplace := slotRegOffset_of_slotRegAt hq
    refine ⟨_, q, rfl, hwin.2, ?_⟩
    simp only [regOffset]
    omega
  · cases h

/-- An offset holds the register whose offset it is, and a slot register is one of a slot the block has (R19, R42). -/
theorem regOffset_of_regAt {n : Nat} {off : BitVec 12} {r : Reg} (h : regAt n off = some r) :
    regOffset r = off.toNat ∧ ∀ k q, r = .slot k q → k < n := by
  unfold regAt at h
  split at h
  case h_23 =>
    obtain ⟨k, q, rfl, hk, hoff⟩ := regOffset_of_slotWindowAt h
    exact ⟨hoff, fun k' q' e => by cases e; exact hk⟩
  all_goals
    rename_i hoff
    cases h
    exact ⟨hoff.symm, nofun⟩

/-! ## What a register access does -/

theorem readOffset_unmapped {s : State} {off : BitVec 12} (h : regAt s.cfg.numSlots off = none) :
    readOffset s off = 0 := by
  simp [readOffset, h]

theorem writeOffset_unmapped {s : State} {off : BitVec 12} (v : Word) (h : regAt s.cfg.numSlots off = none) :
    writeOffset off v s = .next s := by
  simp [writeOffset, h]

theorem writeOffset_cmd (w : Word) (s : State) : writeOffset 0 w s = command w s := rfl

/-- The block takes every register write of the interface (R205). -/
theorem writeOffset_is_next (off : BitVec 12) (v : Word) (s : State) : ∃ t, writeOffset off v s = .next t := by
  unfold writeOffset
  split
  · obtain ⟨t, ht, _⟩ := command_endsWithOutcome v s
    exact ⟨t, ht⟩
  · exact ⟨_, rfl⟩
  · exact ⟨_, rfl⟩

theorem registerAccess_inside {size : Nat} {off : BitVec 12} (k : Host.Outcome State Fault Refusal)
    (hsize : size = 4) (halign : off.toNat % 4 = 0) : registerAccess size off k = k := by
  simp [registerAccess, hsize, halign]

theorem registerAccess_outside {size : Nat} {off : BitVec 12} (k : Host.Outcome State Fault Refusal)
    (h : ¬ (size = 4 ∧ off.toNat % 4 = 0)) : ∃ r, registerAccess size off k = .refused r := by
  by_cases hsize : size = 4
  · have halign : off.toNat % 4 ≠ 0 := fun ha => h ⟨hsize, ha⟩
    exact ⟨.registerAccessUnaligned, by simp [registerAccess, hsize, halign]⟩
  · exact ⟨.registerAccessNotWord, by simp [registerAccess, hsize]⟩

/-! ## What a host step does -/

theorem hostStep_accepted {h : HostStep} {s : State} (ha : h.accepted s.cfg.memSize) :
    ∃ t, hostStep h s = .next t := by
  cases h with
  | regRead size off => exact ⟨_, registerAccess_inside _ ha.1 ha.2⟩
  | regWrite size off v =>
    obtain ⟨t, ht⟩ := writeOffset_is_next off v (s.setReply none)
    exact ⟨t, (registerAccess_inside _ ha.1 ha.2).trans ht⟩
  | memRead a => exact ⟨_, if_pos ha⟩
  | memWrite a b => exact ⟨_, if_pos ha⟩

theorem hostStep_not_accepted {h : HostStep} {s : State} (ha : ¬ h.accepted s.cfg.memSize) :
    ∃ r, hostStep h s = .refused r := by
  cases h with
  | regRead size off => exact registerAccess_outside _ ha
  | regWrite size off v => exact registerAccess_outside _ ha
  | memRead a => exact ⟨_, if_neg ha⟩
  | memWrite a b => exact ⟨_, if_neg ha⟩

@[simp] theorem State.taken_cfg (rest : List HostStep) (s : State) : (s.taken rest).cfg = s.cfg := rfl

section
variable {s : State} {rest : List HostStep}

theorem step_eq_hostStep {h : HostStep} (hs : s.host = h :: rest) : step s = hostStep h (s.setHost rest) := by
  simp only [step, hs]

theorem step_regRead {off : BitVec 12} (hs : s.host = .regRead 4 off :: rest) (halign : off.toNat % 4 = 0) :
    step s = .next ((s.setHost rest).setReply (some (.word (readOffset s off)))) :=
  (step_eq_hostStep hs).trans (registerAccess_inside _ rfl halign)

theorem step_regWrite {off : BitVec 12} {v : Word} (hs : s.host = .regWrite 4 off v :: rest)
    (halign : off.toNat % 4 = 0) : step s = writeOffset off v (s.taken rest) :=
  (step_eq_hostStep hs).trans (registerAccess_inside _ rfl halign)

theorem step_cmdWrite {w : Word} (hs : s.host = .regWrite 4 0 w :: rest) : step s = command w (s.taken rest) :=
  (step_regWrite hs rfl).trans (writeOffset_cmd w _)

end

/-- No step changes the configuration (R17). -/
theorem step_cfg {s t : State} (h : step s = .next t) : t.cfg = s.cfg := by
  rcases step_next_cases h with ⟨_, rfl⟩ | ⟨_, _, _, _, rfl⟩ | ⟨_, _, _, _, _, hx⟩ | ⟨_, _, _, _, _, rfl⟩ |
    ⟨_, _, _, _, _, _, _, rfl⟩ | ⟨_, _, _, _, rfl⟩ | ⟨_, _, _, _, _, rfl⟩
  case inr.inr.inl => exact (exec_cfg hx).trans (State.taken_cfg _ _)
  all_goals rfl

/-- A step that writes no command leaves STATUS as it was (R21). -/
theorem step_status_of_no_cmdWrite {s t : State} (hcmd : ∀ w rest, s.host ≠ .regWrite 4 0x000 w :: rest)
    (h : step s = .next t) : t.status = s.status := by
  rcases step_next_cases h with ⟨_, rfl⟩ | ⟨_, _, _, _, rfl⟩ | ⟨w, rest, _, hw, _⟩ | ⟨w, rest, _, hw, _⟩ |
    ⟨_, _, _, _, _, _, _, rfl⟩ | ⟨_, _, _, _, rfl⟩ | ⟨_, _, _, _, _, rfl⟩
  case inr.inr.inl | inr.inr.inr.inl => exact absurd hw (hcmd w rest)
  all_goals rfl

/-! ## The configuration registers -/

theorem readOffset_cfgId (s : State) : readOffset s 0x080 = 0x50430001 := rfl

theorem readOffset_cfgNumSlots (s : State) : readOffset s 0x084 = (BitVec.ofNat 5 s.cfg.numSlots).setWidth 32 := rfl

theorem readOffset_cfgMemLast (s : State) : readOffset s 0x088 = BitVec.ofNat 32 (s.cfg.memSize - 1) := rfl

theorem writeOffset_configuration {off : BitVec 12} (v : Word) (s : State)
    (h : off = 0x080 ∨ off = 0x084 ∨ off = 0x088) : writeOffset off v s = .next s := by
  rcases h with rfl | rfl | rfl <;> rfl

/-- Settles O4: the configuration is kept by every step, and the three registers read nothing else. -/
theorem configurationRegistersAreConstant : Obligations.ConfigurationRegistersAreConstant := by
  refine ⟨fun s ⟨_, hslots, hmem, hmem'⟩ => ⟨readOffset_cfgId s, ?_, ?_⟩, fun s t h => ?_,
    fun s off v rest hoff hs => ?_⟩
  · rw [readOffset_cfgNumSlots, BitVec.toNat_setWidth, BitVec.toNat_ofNat]
    omega
  · rw [readOffset_cfgMemLast, BitVec.toNat_ofNat]
    omega
  · have hcfg := step_cfg h
    refine ⟨hcfg, fun off hoff => ?_⟩
    rcases hoff with rfl | rfl | rfl
    · rfl
    · rw [readOffset_cfgNumSlots, readOffset_cfgNumSlots, hcfg]
    · rw [readOffset_cfgMemLast, readOffset_cfgMemLast, hcfg]
  · have halign : off.toNat % 4 = 0 := by rcases hoff with rfl | rfl | rfl <;> rfl
    exact (step_regWrite hs halign).trans (writeOffset_configuration v _ hoff)

/-! ## Unmapped offsets -/

/-- An offset that the map does not list and that lies in no window of a slot of the block holds no register (R42). -/
theorem regAt_eq_none {n : Nat} {off : BitVec 12}
    (hlist : off ∉ ([0x000, 0x004, 0x008, 0x00C, 0x010, 0x014, 0x018, 0x01C, 0x020, 0x024, 0x028, 0x02C, 0x030,
      0x040, 0x044, 0x048, 0x04C, 0x050, 0x054, 0x080, 0x084, 0x088] : List (BitVec 12)))
    (hwin : ∀ k < n, ∀ j ≤ 8, off.toNat ≠ 0x100 + 0x40 * k + 4 * j) : regAt n off = none := by
  rw [Option.eq_none_iff_forall_not_mem]
  intro r hr
  obtain ⟨hoff, hslot⟩ := regOffset_of_regAt hr
  have hmap : off = BitVec.ofNat 12 (regOffset r) := by simp [hoff]
  cases r with
  | slot k q =>
    obtain ⟨j, hj, hq⟩ := slotRegOffset_eq_word q
    refine hwin k (hslot k q rfl) j hj ?_
    rw [← hoff, regOffset, hq]
  | _ => exact hlist (hmap ▸ by decide)

/-- Settles O6: such an offset holds no register, so a read falls back to 0 and a write has nowhere to store. -/
theorem unmappedOffsetsReadZeroAndIgnoreWrites : Obligations.UnmappedOffsetsReadZeroAndIgnoreWrites := by
  intro s off rest hlist hwin halign
  have hnone : regAt s.cfg.numSlots off = none := regAt_eq_none hlist hwin
  refine ⟨fun hs => ?_, fun v hs => ?_⟩
  · rw [step_regRead hs halign, readOffset_unmapped hnone]
    rfl
  · exact (step_regWrite hs halign).trans (writeOffset_unmapped v hnone)

/-! ## Refused host steps -/

/-- Settles O8: a host step inside the interface answers a next state, and any other is refused. -/
theorem onlyAccessesOutsideTheInterfaceAreRefused : Obligations.OnlyAccessesOutsideTheInterfaceAreRefused := by
  intro s h rest hs
  rw [step_eq_hostStep hs]
  by_cases ha : h.accepted s.cfg.memSize
  · obtain ⟨t, ht⟩ := hostStep_accepted (s := s.setHost rest) ha
    simp [ht, ha]
  · obtain ⟨r, hr⟩ := hostStep_not_accepted (s := s.setHost rest) ha
    simp [hr, ha]

/-! ## STATUS after a CMD write -/

theorem readOffset_status (s : State) : readOffset s 0x004 = s.status.setWidth 32 := rfl

theorem opcField_eq_setWidth (w : Word) : opcField w = w.setWidth 8 :=
  (BitVec.setWidth_eq_extractLsb' (by decide)).symm

/-- Settles O37: a CMD write ends with an outcome, which writes the whole of STATUS. -/
theorem everyCmdWriteReportsStatus : Obligations.EveryCmdWriteReportsStatus := by
  refine ⟨fun s w rest hs => ?_, fun s t hcmd h => step_status_of_no_cmdWrite hcmd h, rfl⟩
  obtain ⟨t, ht, _, _, _, _, c, info, hinfo, rfl⟩ := command_endsWithOutcome w (s.taken rest)
  refine ⟨_, (step_cmdWrite hs).trans ht, ?_, statusInv_statusWord _ c info hinfo, ?_⟩
  · exact (lastopField_statusWord _ c).trans (opcField_eq_setWidth w)
  · rw [readOffset_status, BitVec.toNat_setWidth_of_le (by decide)]
    simp [statusWord_toNat]

end Sys2Proof.Machine
end

section
/-! What a word that Decode rejects does (spec 30_encoding.md R64). -/

namespace Sys2Proof.Machine

/-! ## The fields of a command word as numbers -/

theorem opcField_toNat (w : Word) : (opcField w).toNat = w.toNat % 256 := by
  simp [opcField]

theorem slotField_val (w : Word) : (slotField w).val = w.toNat / 256 % 16 := by
  simp [slotField, Nat.shiftRight_eq_div_pow]

theorem rsvField_toNat (w : Word) : (rsvField w).toNat = w.toNat / 4096 := by
  simp only [rsvField, BitVec.extractLsb'_toNat, Nat.shiftRight_eq_div_pow]
  omega

/-! ## The illegal words -/

/-- The words R64 lists as illegal on a block with `n` slots, by their fields as numbers. -/
def IllegalWord (n : Nat) (w : Word) : Prop :=
  w.toNat % 256 = 0 ∨ 9 ≤ w.toNat % 256 ∨ 4096 ≤ w.toNat ∨ (w.toNat % 256 ≤ 5 ∧ w.toNat / 256 % 16 ≠ 0) ∨
    (6 ≤ w.toNat % 256 ∧ n ≤ w.toNat / 256 % 16)

theorem not_illegalWord_of_decode_ok {n : Nat} {w : Word} {i : Instr} (h : decode n w = .ok i) :
    ¬ IllegalWord n w := by
  obtain ⟨hrsv, hopc, hslot, hwf⟩ := fields_of_decode_ok h
  replace hrsv : w.toNat / 4096 = 0 := by rw [← rsvField_toNat, hrsv]; rfl
  replace hopc : w.toNat % 256 = i.opcode.toNat := by rw [← opcField_toNat, hopc]
  replace hslot : w.toNat / 256 % 16 = (i.slotOf.getD 0).val := by rw [← slotField_val, hslot]
  unfold IllegalWord
  cases i with
  | pack | unpack | csum | csumc | build =>
    simp only [Instr.opcode, Instr.slotOf, Option.getD_none, BitVec.reduceToNat, Fin.val_zero] at hopc hslot
    omega
  | parse k | validate k | release k =>
    simp only [Instr.opcode, Instr.slotOf, Option.getD_some, BitVec.reduceToNat, Instr.wf, decide_eq_true_eq]
      at hopc hslot hwf
    omega

theorem decode_error_of_illegalWord {n : Nat} {w : Word} (h : IllegalWord n w) : ∃ e, decode n w = .error e := by
  cases hd : decode n w with
  | error e => exact ⟨e, rfl⟩
  | ok i => exact absurd h (not_illegalWord_of_decode_ok hd)

theorem command_of_decode_error {w : Word} {s : State} {e : DecodeError} (h : decode s.cfg.numSlots w = .error e) :
    command w s = .next (s.setOutcome (opcField w) .illegalCommand w) := by
  rw [command, h, raise_eq]

theorem statusWord_illegalCommand (op : Byte) : statusWord op .illegalCommand = op.setWidth 16 <<< 8 ||| 0x0038 := by
  revert op; decide

/-- Settles O14: Decode rejects each of these words, and the CMD write then raises ILLEGAL_COMMAND only. -/
theorem illegalWordsRaiseAndChangeNothingElse : Obligations.IllegalWordsRaiseAndChangeNothingElse := by
  intro s w rest hs hill
  obtain ⟨e, he⟩ := decode_error_of_illegalWord hill
  calc step s = command w (s.taken rest) := step_cmdWrite hs
    _ = .next ((s.taken rest).setOutcome (opcField w) .illegalCommand w) := command_of_decode_error he
    _ = _ := by rw [State.setOutcome, statusWord_illegalCommand, opcField_eq_setWidth]; rfl

end Sys2Proof.Machine
end

section
/-! The header codec: a header's bytes on the wire and in MEM, and the statements on PACK and UNPACK (spec
40_header_codec.md). -/

namespace Sys2Proof.Machine

/-! ## The bytes PackHeader lays down -/

theorem byteOf_eq_setWidth_shift {n : Nat} (v : BitVec n) (i : Nat) : byteOf v i = (v >>> (8 * i)).setWidth 8 :=
  BitVec.setWidth_ushiftRight_eq_extractLsb.symm

/-- The four low bytes of a timestamp are those of its low word, the four above them those of its high word. -/
theorem byteOf_stamp (hi lo : Word) (i : Nat) :
    byteOf (hi ++ lo : Stamp) i = if i < 4 then byteOf lo i else byteOf hi (i - 4) := by
  apply BitVec.eq_of_getLsbD_eq
  intro j hj
  rw [getLsbD_byteOf _ _ _ hj, getLsbD_stamp]
  by_cases h : i < 4
  · rw [if_pos h, if_pos (by omega), getLsbD_byteOf _ _ _ hj]
  · rw [if_neg h, if_neg (by omega), getLsbD_byteOf _ _ _ hj]
    congr 1; omega

/-- PackHeader lays a header down as the wire layout of R72. -/
theorem packHeader_toList (mt : Byte) (ps ck : Half) (hi lo : Word) :
    (packHeader mt ps ck (hi ++ lo)).toList = wireBytes mt ps ck hi lo := by
  simp only [packHeader, wireBytes, byteOf_stamp]
  simp [byteOf_eq_setWidth_shift]

/-! ## PackHeader and UnpackHeader undo each other -/

theorem unpackHeader_packHeader (mt : Byte) (ps ck : Half) (ts : Stamp) :
    unpackHeader (packHeader mt ps ck ts) =
      { sync := syncTriplet, msgtype := mt, pktsize := ps, checksum := ck, ts := ts } := by
  have hsync : (0xA3#8 ++ 0x9D#8 ++ 0x7A#8 : BitVec 24) = syncTriplet := by decide
  rw [unpackHeader, Header.mk.injEq]
  exact ⟨hsync, rfl, be16_byteOf ps, be16_byteOf ck, be64_byteOf ts⟩

/-- The sync bytes are the only part of a header that UnpackHeader hands on and PackHeader does not take. -/
theorem packHeader_unpackHeader {h : Vector Byte 16} (h0 : h[0] = 0xA3) (h1 : h[1] = 0x9D) (h2 : h[2] = 0x7A) :
    packHeader (unpackHeader h).msgtype (unpackHeader h).pktsize (unpackHeader h).checksum (unpackHeader h).ts = h := by
  obtain ⟨t7, t6, t5, t4, t3, t2, t1, t0⟩ := byteOf_be64 h[8] h[9] h[10] h[11] h[12] h[13] h[14] h[15]
  apply Vector.ext
  intro i hi
  simp only [packHeader, unpackHeader, byteOf_be16_high, byteOf_be16_low, t7, t6, t5, t4, t3, t2, t1, t0]
  interval_cases i <;> simp [h0, h1, h2]

/-! ## A header in MEM -/

theorem readHeader_writeBytes (m : Memory) (a : Nat) (h : Vector Byte 16) :
    Memory.readHeader (Memory.writeBytes m a h.toList) a = h := by
  rw [← Vector.toList_inj, Memory.readHeader_toList]
  simpa using Memory.readBytes_writeBytes h.toList m a

/-- The RES registers of a header in MEM, byte by byte: each field most significant byte first (R46, R73). -/
theorem resOf_unpackHeader_readHeader (m : Memory) (a : Nat) :
    let b := fun i => Memory.read m (a + i)
    resOf (unpackHeader (Memory.readHeader m a)) =
      { sync := b 0 ++ b 1 ++ b 2, msgtype := b 3, pktsize := b 4 ++ b 5, checksum := b 6 ++ b 7,
        tsHi := b 8 ++ b 9 ++ b 10 ++ b 11, tsLo := b 12 ++ b 13 ++ b 14 ++ b 15 } := by
  intro b
  have hts : (unpackHeader (Memory.readHeader m a)).ts =
      (b 8 ++ b 9 ++ b 10 ++ b 11 : Word) ++ (b 12 ++ b 13 ++ b 14 ++ b 15 : Word) := be64_halves ..
  rw [resOf, hts, stampHi_join, stampLo_join]
  rfl

/-! ## PACK -/

/-- The header PACK writes (R100). -/
def packedHeader (s : State) : Vector Byte 16 :=
  packHeader s.args.msgtype s.args.pktsize s.args.checksum (argTs s)

theorem exec_pack_inBounds {s : State} (h : dstAddr s + 16 ≤ s.cfg.memSize) :
    exec .pack s = .next
      { s with mem := Memory.writeBytes s.mem (dstAddr s) (packedHeader s).toList, status := 0x0100, errinfo := 0 } := by
  rcases execPack_cases s with ⟨hout, _⟩ | ⟨_, he⟩
  · omega
  · exact he

/-- Settles O16: the bytes read back are those PackHeader laid down, in the wire layout. -/
theorem packSerializesTheHeader : Obligations.PackSerializesTheHeader := by
  intro s
  refine ⟨fun hin => ⟨_, exec_pack_inBounds hin, ?_, ?_⟩, fun hout => ?_⟩
  · rw [← Memory.readHeader_toList, readHeader_writeBytes]
    exact packHeader_toList ..
  · simpa using Memory.sameOutside_writeBytes s.mem (dstAddr s) (packedHeader s).toList
  · rcases execPack_cases s with ⟨_, he⟩ | ⟨hin, _⟩
    · exact he
    · omega

/-! ## UNPACK -/

theorem exec_unpack_inBounds {s : State} (hlen : s.args.len = 16) (h : srcAddr s + 16 ≤ s.cfg.memSize) :
    exec .unpack s = .next { s with res := resOf (unpackHeader (srcHeader s)), status := 0x0200, errinfo := 0 } := by
  rcases execUnpack_cases s with ⟨hne, _⟩ | ⟨_, hout, _⟩ | ⟨_, _, he⟩
  · exact absurd hlen hne
  · omega
  · exact he

/-- Settles O17: the length is checked before the bounds, and the RES registers take the header's bytes as they are. -/
theorem unpackDeserializesTheHeader : Obligations.UnpackDeserializesTheHeader := by
  intro s
  refine ⟨fun hne => ?_, fun hlen hout => ?_, fun hlen hin => ?_⟩
  · rcases execUnpack_cases s with ⟨_, he⟩ | ⟨hlen, _⟩ | ⟨hlen, _⟩
    · exact he
    · exact absurd hlen hne
    · exact absurd hlen hne
  · rcases execUnpack_cases s with ⟨hne, _⟩ | ⟨_, _, he⟩ | ⟨_, hin, _⟩
    · exact absurd hlen hne
    · exact he
    · omega
  · rw [exec_unpack_inBounds hlen hin, srcHeader, resOf_unpackHeader_readHeader]

/-! ## PACK, then UNPACK -/

theorem resOf_unpackHeader_packedHeader (s : State) :
    resOf (unpackHeader (packedHeader s)) =
      { sync := 0xA39D7A, msgtype := s.args.msgtype, pktsize := s.args.pktsize, checksum := s.args.checksum,
        tsHi := s.args.tsHi, tsLo := s.args.tsLo } := by
  rw [packedHeader, unpackHeader_packHeader, resOf, argTs, stampHi_join, stampLo_join]
  rfl

/-- Settles O18: UNPACK reads the very header that PACK wrote, and UnpackHeader undoes PackHeader. -/
theorem packThenUnpackRoundTrips : Obligations.PackThenUnpackRoundTrips := by
  refine ⟨fun s hin => ⟨_, exec_pack_inBounds hin, fun u hcfg hsame hsrc hlen => ?_⟩,
    fun h h0 h1 h2 => packHeader_unpackHeader h0 h1 h2⟩
  have haddr : srcAddr u = dstAddr s := congrArg BitVec.toNat hsrc
  have hheader : srcHeader u = packedHeader s := by
    rw [srcHeader, haddr, Memory.readHeader_congr hsame, readHeader_writeBytes]
  rw [exec_unpack_inBounds hlen (by rw [haddr, hcfg]; exact hin), hheader, resOf_unpackHeader_packedHeader]

end Sys2Proof.Machine
end

section
/-! The checksum accumulator: the laws of Fold, and the statements on CSUM and CSUMC (spec 41_checksum.md). -/

namespace Sys2Proof.Machine

/-! ## The XOR of the bytes of a sequence -/

@[simp] theorem xorBytes_nil : xorBytes [] = 0 := rfl

@[simp] theorem xorBytes_cons (b : Byte) (l : List Byte) : xorBytes (b :: l) = b ^^^ xorBytes l := rfl

@[simp] theorem xorBytes_append (l m : List Byte) : xorBytes (l ++ m) = xorBytes l ^^^ xorBytes m := by
  induction l with
  | nil => simp
  | cons b l ih => simp [ih, BitVec.xor_assoc]

theorem xorBytes_perm {l m : List Byte} (h : l.Perm m) : xorBytes l = xorBytes m := by
  have : LeftCommutative fun b acc : Byte => b ^^^ acc := ⟨fun a b acc => by ac_rfl⟩
  exact h.foldr_eq 0

/-- What is XORed into one byte of a sequence is XORed into the whole. -/
theorem xorBytes_set_xor (d : Byte) (l : List Byte) : ∀ i < l.length,
    xorBytes (l.set i (l.getD i 0 ^^^ d)) = xorBytes l ^^^ d := by
  induction l with
  | nil => exact nofun
  | cons b l ih =>
    intro i hi
    cases i with
    | zero => simp only [List.set_cons_zero, List.getD_cons_zero, xorBytes_cons]; ac_rfl
    | succ i =>
      rw [List.set_cons_succ, List.getD_cons_succ, xorBytes_cons, ih i (Nat.lt_of_succ_lt_succ hi), xorBytes_cons,
        BitVec.xor_assoc]

/-! ## Fold -/

theorem fold_append (l m : List Byte) (seed : Half) : fold (l ++ m) seed = fold m (fold l seed) := List.foldl_append

theorem fold_cons (b : Byte) (l : List Byte) (seed : Half) : fold (b :: l) seed = fold l (seed ^^^ b.setWidth 16) := rfl

/-- The closed form of Fold (R122(b)), from which its other laws follow. -/
theorem fold_eq_xorBytes (l : List Byte) : ∀ seed : Half, fold l seed = seed ^^^ (xorBytes l).setWidth 16 := by
  induction l with
  | nil => intro seed; simp [fold]
  | cons b l ih => intro seed; rw [fold_cons, ih, xorBytes_cons, BitVec.setWidth_xor, BitVec.xor_assoc]

theorem fold_congr {l m : List Byte} (h : xorBytes l = xorBytes m) (seed : Half) : fold l seed = fold m seed := by
  rw [fold_eq_xorBytes, fold_eq_xorBytes, h]

theorem fold_set_xor {l : List Byte} {i : Nat} (hi : i < l.length) (d : Byte) (seed : Half) :
    fold (l.set i (l.getD i 0 ^^^ d)) seed = fold l seed ^^^ d.setWidth 16 := by
  rw [fold_eq_xorBytes, fold_eq_xorBytes, xorBytes_set_xor d l i hi, BitVec.setWidth_xor, BitVec.xor_assoc]

/-- A byte has nothing to XOR into the high byte of a 16-bit value. -/
theorem fold_ushiftRight_eight (l : List Byte) (seed : Half) : fold l seed >>> 8 = seed >>> 8 := by
  have hbyte : (xorBytes l).setWidth 16 >>> 8 = 0#16 := by
    apply BitVec.eq_of_toNat_eq
    rw [BitVec.toNat_ushiftRight, BitVec.toNat_setWidth_of_le (by decide), Nat.shiftRight_eq_div_pow]
    exact Nat.div_eq_of_lt (xorBytes l).isLt
  rw [fold_eq_xorBytes, BitVec.ushiftRight_xor_distrib, hbyte, BitVec.xor_zero]

theorem fold_zero_toNat (l : List Byte) : (fold l 0).toNat = (xorBytes l).toNat := by
  rw [fold_eq_xorBytes, BitVec.toNat_xor, BitVec.toNat_setWidth_of_le (by decide)]
  exact Nat.zero_xor _

/-! ## Flipped bits -/

theorem setWidth_bit {k : Nat} (hk : k < 8) : (1#8 <<< k).setWidth 16 = 1#16 <<< k := by
  revert k; decide

theorem bit_ne_zero {k : Nat} (hk : k < 8) : 1#16 <<< k ≠ 0 := by
  revert k; decide

theorem fold_flip_bit {l : List Byte} {i k : Nat} (hi : i < l.length) (hk : k < 8) (seed : Half) :
    fold (l.set i (l.getD i 0 ^^^ 1#8 <<< k)) seed = fold l seed ^^^ 1#16 <<< k := by
  rw [fold_set_xor hi, setWidth_bit hk]

theorem fold_flip_bit_ne {l : List Byte} {i k : Nat} (hi : i < l.length) (hk : k < 8) (seed : Half) :
    fold (l.set i (l.getD i 0 ^^^ 1#8 <<< k)) seed ≠ fold l seed := by
  rw [fold_flip_bit hi hk]
  exact fun h => bit_ne_zero hk ((BitVec.xor_right_inj _).mp (h.trans BitVec.xor_zero.symm))

/-- The same change in two bytes cancels in the fold. -/
theorem fold_set_xor_twice {l : List Byte} {i j : Nat} (hi : i < l.length) (hj : j < l.length) (hij : i ≠ j) (d : Byte)
    (seed : Half) : fold ((l.set i (l.getD i 0 ^^^ d)).set j (l.getD j 0 ^^^ d)) seed = fold l seed := by
  have hother : l.getD j 0 = (l.set i (l.getD i 0 ^^^ d)).getD j 0 := by simp [List.getD, hij]
  rw [hother, fold_set_xor (by simpa using hj), fold_set_xor hi, BitVec.xor_assoc, BitVec.xor_self, BitVec.xor_zero]

/-! ## The laws -/

theorem xorBytes_equal_pair (l m n : List Byte) (x : Byte) :
    xorBytes (l ++ x :: m ++ x :: n) = xorBytes (l ++ m ++ n) := by
  calc xorBytes (l ++ x :: m ++ x :: n)
      = xorBytes l ^^^ xorBytes m ^^^ xorBytes n ^^^ (x ^^^ x) := by
        simp only [xorBytes_append, xorBytes_cons]; ac_rfl
    _ = xorBytes (l ++ m ++ n) := by rw [BitVec.xor_self, BitVec.xor_zero, xorBytes_append, xorBytes_append]

/-- Settles O21: each law is read off the closed form. -/
theorem foldObeysItsLaws : Obligations.FoldObeysItsLaws := by
  intro A B C s x
  refine ⟨fold_append A B s, fold_eq_xorBytes A s, fun A' h => fold_congr (xorBytes_perm h.symm) s,
    ⟨fold_ushiftRight_eight A s, ?lowByte⟩,
    fun i hi k hk => ⟨fold_flip_bit hi hk s, fold_flip_bit_ne hi hk s⟩,
    fun i hi j hj hij k _ => fold_set_xor_twice hi hj hij _ s,
    fold_congr (xorBytes_equal_pair A B C x) s, fold_congr ?zeroByte s⟩
  case lowByte =>
    rw [fold_zero_toNat]
    exact Nat.le_of_lt_succ (xorBytes A).isLt
  case zeroByte => simp

/-! ## CSUM and CSUMC -/

section
variable {s : State} (op : Byte) (seed : Half)

theorem checksumFrom_inBounds (h : srcAddr s + srcLen s ≤ s.cfg.memSize) :
    checksumFrom op seed s = .next ((s.setAcc (fold (srcBytes s) seed)).setOutcome op .ok 0) := by
  rcases checksumFrom_cases op seed s with ⟨hout, _⟩ | ⟨_, he⟩
  · omega
  · exact he

theorem checksumFrom_outOfBounds (h : s.cfg.memSize < srcAddr s + srcLen s) :
    checksumFrom op seed s = .next (s.setOutcome op .boundsError s.args.src) := by
  rcases checksumFrom_cases op seed s with ⟨_, he⟩ | ⟨hin, _⟩
  · exact he
  · omega

end

/-- Settles O19: CSUM is the shared fold of the source range, with ARG_SEED as its seed. -/
theorem csumFoldsFromTheSeed : Obligations.CsumFoldsFromTheSeed := fun s =>
  ⟨fun h => (exec_csum s).trans (checksumFrom_inBounds 0x03 s.args.seed h),
    fun h => (exec_csum s).trans (checksumFrom_outOfBounds 0x03 s.args.seed h)⟩

/-- Settles O20: CSUMC is the same fold, with ACC as its seed. -/
theorem csumcFoldsFromTheAccumulator : Obligations.CsumcFoldsFromTheAccumulator := fun s =>
  ⟨fun h => (exec_csumc s).trans (checksumFrom_inBounds 0x04 s.acc h),
    fun h => (exec_csumc s).trans (checksumFrom_outOfBounds 0x04 s.acc h)⟩

end Sys2Proof.Machine
end

section
/-! The packet builder: the packet a successful BUILD leaves, and the statements on BUILD (spec 42_builder.md). -/

namespace Sys2Proof.Machine

/-! ## The header and the packet, in the wire layout -/

theorem builtSize_eq (s : State) : builtSize s = BitVec.ofNat 16 (16 + srcLen s) := by
  apply BitVec.eq_of_toNat_eq
  simp [builtSize, srcLen]

theorem builtHeader_toList (s : State) (ck : Half) :
    (builtHeader s ck).toList =
      wireBytes s.args.msgtype (BitVec.ofNat 16 (16 + srcLen s)) ck s.args.tsHi s.args.tsLo := by
  rw [builtHeader, argTs, packHeader_toList, builtSize_eq]

@[simp] theorem length_builtPacket (s : State) : (builtPacket s).length = 16 + srcLen s := by
  simp [builtPacket, srcBytes]

/-! ## The state a successful BUILD leaves -/

theorem exec_build_inBounds {s : State} (hlen : srcLen s ≤ 65519) (hsrc : srcAddr s + srcLen s ≤ s.cfg.memSize)
    (hdst : dstAddr s + (16 + srcLen s) ≤ s.cfg.memSize) : exec .build s = .next (builtState s) := by
  rcases execBuild_cases s with ⟨hlong, _⟩ | ⟨_, hout, _⟩ | ⟨_, _, hout, _⟩ | ⟨_, _, _, he⟩
  · omega
  · omega
  · omega
  · exact he

theorem builtState_mem (s : State) : (builtState s).mem = Memory.writeBytes s.mem (dstAddr s) (builtPacket s) := rfl

theorem readBytes_builtState (s : State) :
    Memory.readBytes (builtState s).mem (dstAddr s) (16 + srcLen s) = builtPacket s := by
  rw [← length_builtPacket, builtState_mem, Memory.readBytes_writeBytes]

theorem sameOutside_builtState (s : State) : sameOutside s.mem (builtState s).mem (dstAddr s) (16 + srcLen s) := by
  rw [← length_builtPacket, builtState_mem]
  exact Memory.sameOutside_writeBytes s.mem (dstAddr s) (builtPacket s)

theorem builtRes_eq (s : State) :
    builtRes s =
      { sync := 0xA39D7A, msgtype := s.args.msgtype, pktsize := BitVec.ofNat 16 (16 + srcLen s),
        checksum := builtChecksum s, tsHi := s.args.tsHi, tsLo := s.args.tsLo } := by
  rw [builtRes, resOf, argTs, stampHi_join, stampLo_join, builtSize_eq]
  rfl

theorem builtState_eq (s : State) :
    builtState s = { s with
      mem := (builtState s).mem, acc := builtChecksum s, status := 0x0500, errinfo := 0
      res := { sync := 0xA39D7A, msgtype := s.args.msgtype, pktsize := BitVec.ofNat 16 (16 + srcLen s),
               checksum := builtChecksum s, tsHi := s.args.tsHi, tsLo := s.args.tsLo } } := by
  rw [← builtRes_eq]
  rfl

/-- Settles O23: BUILD's four cases exclude each other, so in each the premises of the other three clauses contradict
the case's own; in the last one the bytes read back are the packet. -/
theorem buildAssemblesThePacket : Obligations.BuildAssemblesThePacket := by
  intro s
  simp only [← builtHeader_toList]
  rcases execBuild_cases s with
    ⟨hlong, he⟩ | ⟨hlen, hsrc, he⟩ | ⟨hlen, hsrc, hdst, he⟩ | ⟨hlen, hsrc, hdst, he⟩
  · exact ⟨fun _ => he, by omega, by omega, by omega⟩
  · exact ⟨by omega, fun _ _ => he, by omega, by omega⟩
  · exact ⟨by omega, by omega, fun _ _ _ => he, by omega⟩
  · exact ⟨by omega, by omega, by omega, fun _ _ _ =>
      ⟨(builtState s).mem, he.trans (congrArg Host.Outcome.next (builtState_eq s)), readBytes_builtState s,
        sameOutside_builtState s⟩⟩

/-! ## The patch-in-place form -/

/-- Over a memory that reads as one with a run of bytes written, a byte written into the run replaces one of it. -/
theorem Memory.read_write_into_writeBytes {m m' : Memory} {a i : Nat} {l : List Byte} (b : Byte) (hi : i < l.length)
    (hm : ∀ x, read m' x = read (writeBytes m a l) x) (x : Nat) :
    read (write m' (a + i) b) x = read (writeBytes m a (l.set i b)) x := by
  rw [read_write, hm, read_writeBytes, read_writeBytes, List.length_set]
  by_cases hx : x = a + i
  · rw [if_pos hx, if_pos (by omega), hx, Nat.add_sub_cancel_left]
    simp [List.getD, hi]
  · rw [if_neg hx]
    by_cases hr : a ≤ x ∧ x < a + l.length
    · rw [if_pos hr, if_pos hr]
      have hne : i ≠ x - a := by omega
      simp [List.getD, hne]
    · rw [if_neg hr, if_neg hr]

/-- Only the bytes at offsets 6 and 7 of a header depend on its checksum (R72). -/
theorem wireBytes_append_checksum (mt : Byte) (ps ck : Half) (hi lo : Word) (data : List Byte) :
    wireBytes mt ps ck hi lo ++ data =
      ((wireBytes mt ps 0 hi lo ++ data).set 6 ((ck >>> 8).setWidth 8)).set 7 (ck.setWidth 8) := rfl

/-- Settles O24: the patched bytes replace the zeroed checksum field of what was written. -/
theorem patchInPlaceBuildsTheSamePacket : Obligations.PatchInPlaceBuildsTheSamePacket := by
  intro s hlen hsrc hdst h0 buf c once patched
  refine ⟨_, exec_build_inBounds hlen hsrc hdst, fun a => ?_⟩
  have hbuf : buf = (builtHeader s 0).toList ++ srcBytes s := by rw [builtHeader_toList]; rfl
  have hc : c = builtChecksum s := by rw [builtChecksum, ← hbuf]
  have hlong : 7 < buf.length := by simp [buf, h0, wireBytes]
  have hpacket : builtPacket s = (buf.set 6 ((c >>> 8).setWidth 8)).set 7 (c.setWidth 8) := by
    rw [builtPacket, builtHeader_toList, wireBytes_append_checksum, hc]
    rfl
  rw [builtState_mem, hpacket]
  symm
  apply Memory.read_write_into_writeBytes _ (by simpa using hlong)
  exact Memory.read_write_into_writeBytes _ (by omega) fun _ => rfl

/-! ## The fold over a built packet -/

/-- The bytes of a header with a zero checksum field, XORed: the rest of the wire layout. -/
theorem xorBytes_wireBytes_zero (mt : Byte) (ps : Half) (hi lo : Word) :
    xorBytes (wireBytes mt ps 0 hi lo) =
      0xA3#8 ^^^ 0x9D#8 ^^^ 0x7A#8 ^^^ mt ^^^ (ps >>> 8).setWidth 8 ^^^ ps.setWidth 8 ^^^
      (hi >>> 24).setWidth 8 ^^^ (hi >>> 16).setWidth 8 ^^^ (hi >>> 8).setWidth 8 ^^^ hi.setWidth 8 ^^^
      (lo >>> 24).setWidth 8 ^^^ (lo >>> 16).setWidth 8 ^^^ (lo >>> 8).setWidth 8 ^^^ lo.setWidth 8 := by
  simp only [wireBytes, xorBytes_cons, xorBytes_nil, BitVec.ofNat_eq_ofNat, BitVec.zero_ushiftRight,
    BitVec.setWidth_zero, BitVec.zero_xor, BitVec.xor_zero]
  ac_rfl

/-- The checksum field XORs its two bytes into those of the zeroed header. -/
theorem xorBytes_wireBytes (mt : Byte) (ps ck : Half) (hi lo : Word) :
    xorBytes (wireBytes mt ps ck hi lo) =
      xorBytes (wireBytes mt ps 0 hi lo) ^^^ ((ck >>> 8).setWidth 8 ^^^ ck.setWidth 8) := by
  rw [xorBytes_wireBytes_zero]
  simp only [wireBytes, xorBytes_cons, xorBytes_nil, BitVec.ofNat_eq_ofNat, BitVec.xor_zero]
  ac_rfl

/-- The high byte of a zero-extended byte is 0 and the low byte is the byte. -/
theorem xor_bytes_of_setWidth (b : Byte) :
    (b.setWidth 16 >>> 8).setWidth 8 ^^^ (b.setWidth 16).setWidth 8 = b := by
  revert b; decide

theorem fold_zero_eq_setWidth (l : List Byte) : fold l 0 = (xorBytes l).setWidth 16 := by
  rw [fold_eq_xorBytes]
  exact BitVec.zero_xor

/-- The checksum of a zeroed header and its data, put in the header's checksum field, makes them fold to 0 (R132). -/
theorem fold_checksummed (mt : Byte) (ps : Half) (hi lo : Word) (data : List Byte) :
    fold (wireBytes mt ps (fold (wireBytes mt ps 0 hi lo ++ data) 0) hi lo ++ data) 0 = 0 := by
  have hcancel (h d : Byte) : h ^^^ (h ^^^ d) ^^^ d = 0#8 := by
    rw [← BitVec.xor_assoc, BitVec.xor_self, BitVec.zero_xor, BitVec.xor_self]
  rw [fold_zero_eq_setWidth, fold_zero_eq_setWidth, xorBytes_append, xorBytes_wireBytes, xor_bytes_of_setWidth,
    xorBytes_append, hcancel]
  rfl

theorem builtState_acc (s : State) : (builtState s).acc = builtChecksum s := rfl

/-- Settles O25: ACC is the XOR of the zeroed header and the data, and the packet written carries it. -/
theorem builtPacketFoldsToZero : Obligations.BuiltPacketFoldsToZero := by
  refine ⟨by decide, fun s hlen hsrc hdst => ⟨_, exec_build_inBounds hlen hsrc hdst, ?closedForm, ?foldsToZero⟩⟩
  case closedForm =>
    rw [builtState_acc, builtChecksum, fold_zero_eq_setWidth, xorBytes_append, builtHeader_toList,
      xorBytes_wireBytes_zero]
    rfl
  case foldsToZero =>
    rw [readBytes_builtState, builtPacket, builtChecksum, builtHeader_toList, builtHeader_toList, fold_checksummed]

end Sys2Proof.Machine
end

section
/-! PARSE, its five outcomes and the slot it fills, and RELEASE (spec 43_parser.md R142, R143, R155). -/

namespace Sys2Proof.Machine

/-! ## The header PARSE reads -/

theorem append_inj {n m : Nat} {x x' : BitVec n} {y y' : BitVec m} : x ++ y = x' ++ y' ↔ x = x' ∧ y = y' := by
  refine ⟨fun h => ⟨?_, ?_⟩, fun ⟨hx, hy⟩ => hx ▸ hy ▸ rfl⟩
  · simpa only [BitVec.extractLsb'_append_eq_left] using congrArg (BitVec.extractLsb' m n) h
  · simpa only [BitVec.extractLsb'_append_eq_right] using congrArg (BitVec.extractLsb' 0 m) h

/-- The sync triplet stands in the first three bytes, first byte most significant (R74). -/
theorem sync_eq_syncTriplet_iff (h : Vector Byte 16) :
    (unpackHeader h).sync = syncTriplet ↔ h[0] = 0xA3 ∧ h[1] = 0x9D ∧ h[2] = 0x7A := by
  have htriplet : syncTriplet = 0xA3#8 ++ 0x9D#8 ++ 0x7A#8 := by decide
  rw [htriplet, unpackHeader, append_inj, append_inj, and_assoc]
  rfl

/-- PackHeader with a zero checksum gives back a header with the sync triplet put in and bytes 6 and 7 zeroed (R143). -/
theorem packHeader_unpackHeader_zero (h : Vector Byte 16) :
    packHeader (unpackHeader h).msgtype (unpackHeader h).pktsize 0 (unpackHeader h).ts =
      (#v[0xA3, 0x9D, 0x7A, h[3], h[4], h[5], 0, 0, h[8], h[9], h[10], h[11], h[12], h[13], h[14], h[15]] :
        Vector Byte 16) := by
  obtain ⟨t7, t6, t5, t4, t3, t2, t1, t0⟩ := byteOf_be64 h[8] h[9] h[10] h[11] h[12] h[13] h[14] h[15]
  simp only [packHeader, unpackHeader, byteOf_be16_high, byteOf_be16_low, t7, t6, t5, t4, t3, t2, t1, t0]
  rfl

/-! ## The five outcomes of PARSE -/

section
variable {k : Fin 16} {s : State}

theorem exec_parse_headerSize (hlen : s.args.len ≠ 16) :
    exec (.parse k) s = .next ((s.setSlot k Slot.empty).setOutcome 0x06 .headerSizeError s.args.len) := by
  rw [execParse_eq, if_pos hlen]
  rfl

theorem exec_parse_bounds (hlen : s.args.len = 16) (hout : s.cfg.memSize < srcAddr s + 16) :
    exec (.parse k) s = .next ((s.setSlot k Slot.empty).setOutcome 0x06 .boundsError s.args.src) := by
  rw [execParse_eq, if_neg (not_not.mpr hlen), if_pos (by omega)]
  rfl

theorem exec_parse_sync (hlen : s.args.len = 16) (hin : srcAddr s + 16 ≤ s.cfg.memSize)
    (hsync : (parsedHeader s).sync ≠ syncTriplet) :
    exec (.parse k) s =
      .next ((s.setSlot k Slot.empty).setOutcome 0x06 .syncError ((parsedHeader s).sync.setWidth 32)) := by
  rw [execParse_eq, if_neg (not_not.mpr hlen), if_neg (not_not.mpr hin), if_pos hsync]
  rfl

theorem exec_parse_pktsize (hlen : s.args.len = 16) (hin : srcAddr s + 16 ≤ s.cfg.memSize)
    (hsync : (parsedHeader s).sync = syncTriplet) (hsize : (parsedHeader s).pktsize < 16) :
    exec (.parse k) s =
      .next ((s.setSlot k Slot.empty).setOutcome 0x06 .pktsizeError ((parsedHeader s).pktsize.setWidth 32)) := by
  rw [execParse_eq, if_neg (not_not.mpr hlen), if_neg (not_not.mpr hin), if_neg (not_not.mpr hsync), if_pos hsize]
  rfl

theorem exec_parse_ok (hlen : s.args.len = 16) (hin : srcAddr s + 16 ≤ s.cfg.memSize)
    (hsync : (parsedHeader s).sync = syncTriplet) (hsize : ¬ (parsedHeader s).pktsize < 16) :
    exec (.parse k) s = .next ((s.setSlot k (parsedSlot (parsedHeader s))).setOutcome 0x06 .ok 0) := by
  have hset : (discardSlot k s).setSlot k (parsedSlot (parsedHeader s)) = s.setSlot k (parsedSlot (parsedHeader s)) := by
    simp [discardSlot, State.setSlot]
  rw [execParse_eq, if_neg (not_not.mpr hlen), if_neg (not_not.mpr hin), if_neg (not_not.mpr hsync), if_neg hsize, hset,
    finish_eq]

/-- A PARSE whose CODE is OK passed its checks. -/
theorem parse_succeeded {t : State} (h : exec (.parse k) s = .next t) (hok : codeField t.status = 0) :
    (parsedHeader s).sync = syncTriplet ∧ ¬ (parsedHeader s).pktsize < 16 ∧
      t = (s.setSlot k (parsedSlot (parsedHeader s))).setOutcome 0x06 .ok 0 := by
  rcases execParse_cases k s with ⟨_, he⟩ | ⟨_, _, he⟩ | ⟨_, _, _, he⟩ | ⟨_, _, _, _, he⟩ | ⟨_, _, hsync, hsize, he⟩
  case inr.inr.inr.inr => exact ⟨hsync, hsize, next_inj (he.symm.trans h)⟩
  all_goals
    rw [next_inj (he.symm.trans h), State.setOutcome_status, codeField_statusWord] at hok
    cases codeBits_eq_zero.mp hok

/-- The slot of a header read from MEM, byte by byte (R142, R143). -/
theorem parsedSlot_parsedHeader (hsize : ¬ (parsedHeader s).pktsize < 16) :
    let b := fun i => Memory.read s.mem (srcAddr s + i)
    parsedSlot (parsedHeader s) =
      { state := .headerParsed, msgtype := b 3, pktsize := b 4 ++ b 5, checksum := b 6 ++ b 7,
        ts := b 8 ++ b 9 ++ b 10 ++ b 11 ++ b 12 ++ b 13 ++ b 14 ++ b 15,
        datasize := BitVec.ofNat 16 ((b 4 ++ b 5).toNat - 16), pbase := 0, plen := 0,
        hdrbuf := #v[0xA3, 0x9D, 0x7A, b 3, b 4, b 5, 0, 0, b 8, b 9, b 10, b 11, b 12, b 13, b 14, b 15] } := by
  intro b
  have hdatasize : (parsedHeader s).pktsize - 16 = BitVec.ofNat 16 ((parsedHeader s).pktsize.toNat - 16) := by
    apply BitVec.eq_of_toNat_eq
    bv_omega
  rw [parsedSlot, hdatasize, parsedHeader, packHeader_unpackHeader_zero]
  rfl

end

/-- Settles O28: each clause is one outcome of PARSE, with the header's fields written out as bytes. -/
theorem parseFillsTheSlot : Obligations.ParseFillsTheSlot := by
  intro s k _ b ps emptied
  have hsync : (parsedHeader s).sync = syncTriplet ↔ b 0 = 0xA3 ∧ b 1 = 0x9D ∧ b 2 = 0x7A :=
    sync_eq_syncTriplet_iff (srcHeader s)
  refine ⟨exec_parse_headerSize, exec_parse_bounds, fun hlen hin hb => ?sync, fun hlen hin h0 h1 h2 hps => ?pktsize,
    fun hlen hin h0 h1 h2 hps => ?ok⟩
  case sync => exact exec_parse_sync hlen hin (mt hsync.mp hb)
  case pktsize => exact exec_parse_pktsize hlen hin (hsync.mpr ⟨h0, h1, h2⟩) hps
  case ok =>
    have hsize : ¬ (parsedHeader s).pktsize < 16 := Nat.not_lt.mpr hps
    rw [exec_parse_ok hlen hin (hsync.mpr ⟨h0, h1, h2⟩) hsize, parsedSlot_parsedHeader hsize]
    rfl

/-! ## The stored header -/

/-- The header that PARSE stores is the one it read, with the checksum field zeroed (R143). -/
theorem hdrbuf_parsedSlot {s : State} (hsync : (parsedHeader s).sync = syncTriplet) :
    (parsedSlot (parsedHeader s)).hdrbuf.toList = ((srcHeader s).toList.set 6 0).set 7 0 := by
  obtain ⟨h0, h1, h2⟩ := (sync_eq_syncTriplet_iff (srcHeader s)).mp hsync
  rw [parsedSlot, parsedHeader, packHeader_unpackHeader_zero, ← h0, ← h1, ← h2]
  rfl

/-- Zeroing one byte of a sequence XORs it out of the fold. -/
theorem fold_set_zero {l : List Byte} {i : Nat} (hi : i < l.length) (seed : Half) :
    fold (l.set i 0) seed = fold l seed ^^^ (l.getD i 0).setWidth 16 := by
  simpa using fold_set_xor hi (l.getD i 0) seed

/-- The fold of a packet with its checksum field zeroed (R143). -/
theorem fold_zeroed_checksum (l : List Byte) (hl : 7 < l.length) (seed : Half) :
    fold ((l.set 6 0).set 7 0) seed = fold l seed ^^^ (l.getD 6 0 ^^^ l.getD 7 0).setWidth 16 := by
  have hother : (l.set 6 0).getD 7 0 = l.getD 7 0 := by simp [List.getD]
  rw [fold_set_zero (by simpa using hl), hother, fold_set_zero (by omega), BitVec.setWidth_xor, BitVec.xor_assoc]

theorem slot_setSlot_setOutcome (s : State) {k : Nat} (p : Slot) (op : Byte) (c : Code) (info : Word)
    (hk : k < s.slots.length) : ((s.setSlot k p).setOutcome op c info).slot k = p :=
  s.slot_setSlot_same p hk

/-- Settles O29: a PARSE that succeeds read the sync triplet, so the stored header is the received one but for the
checksum field. -/
theorem storedHeaderIsTheZeroedHeader : Obligations.StoredHeaderIsTheZeroedHeader := by
  intro s t k hk h hok
  obtain ⟨hsync, _, rfl⟩ := parse_succeeded h hok
  rw [slot_setSlot_setOutcome s _ _ _ _ hk, hdrbuf_parsedSlot hsync, srcHeader, Memory.readHeader_toList]
  exact ⟨rfl, fold_zeroed_checksum (Memory.readBytes s.mem (srcAddr s) 16) (by simp) 0⟩

/-! ## RELEASE -/

/-- Settles O32: RELEASE is Discard and a successful end. -/
theorem releaseEmptiesTheSlot : Obligations.ReleaseEmptiesTheSlot := fun s k => exec_release k s

end Sys2Proof.Machine
end

section
/-! VALIDATE: its four outcomes, and when the checksum is equal (spec 43_parser.md R150, R151). -/

namespace Sys2Proof.Machine

section
variable {k : Fin 16} {s : State}

theorem exec_validate_state (hstate : (s.slot k).state ≠ .headerParsed) :
    exec (.validate k) s =
      .next (s.setOutcome 0x07 .stateError ((slotStateBits (s.slot k).state).setWidth 32)) :=
  if_pos hstate

theorem exec_validate_bounds (hstate : (s.slot k).state = .headerParsed)
    (hout : s.cfg.memSize < srcAddr s + srcLen s) :
    exec (.validate k) s = .next (s.setOutcome 0x07 .boundsError s.args.src) :=
  (if_neg (not_not.mpr hstate)).trans (if_pos (Nat.not_le.mpr hout))

theorem exec_validate_checksum (hstate : (s.slot k).state = .headerParsed)
    (hin : srcAddr s + srcLen s ≤ s.cfg.memSize) (hck : recomputed k s ≠ (s.slot k).checksum) :
    exec (.validate k) s =
      .next (((s.setAcc (recomputed k s)).setSlot k (failedSlot (s.slot k))).setOutcome 0x07 .checksumError
        ((recomputed k s).setWidth 32)) :=
  (if_neg (not_not.mpr hstate)).trans ((if_neg (not_not.mpr hin)).trans (if_pos hck))

theorem exec_validate_ok (hstate : (s.slot k).state = .headerParsed)
    (hin : srcAddr s + srcLen s ≤ s.cfg.memSize) (hck : recomputed k s = (s.slot k).checksum) :
    exec (.validate k) s =
      .next (((s.setAcc (recomputed k s)).setSlot k
        (validatedSlot (s.slot k) s.args.src s.args.len)).setOutcome 0x07 .ok 0) :=
  (if_neg (not_not.mpr hstate)).trans ((if_neg (not_not.mpr hin)).trans (if_neg (not_not.mpr hck)))

end

/-- P_STATE as STATE_ERROR's ERRINFO shows it, for a slot that is not HEADER_PARSED. -/
theorem slotStateBits_of_not_headerParsed {st : SlotState} (h : st ≠ .headerParsed) :
    (slotStateBits st).setWidth 32 = if st = .empty then 0 else if st = .validated then 2 else 3 := by
  cases st with
  | headerParsed => exact absurd rfl h
  | empty | validated | failed => rfl

/-- Settles O30: each clause is one outcome of VALIDATE. -/
theorem validateComparesTheChecksum : Obligations.ValidateComparesTheChecksum := by
  intro s k p hp c
  obtain rfl : s.slot k = p := s.slot_of_get hp
  refine ⟨fun hstate => ?_, exec_validate_bounds, exec_validate_checksum, exec_validate_ok⟩
  rw [exec_validate_state hstate, slotStateBits_of_not_headerParsed hstate]
  rfl

/-- The checksum VALIDATE recomputes is one byte, zero-extended (R151). -/
theorem recomputed_eq_setWidth (k : Fin 16) (s : State) :
    recomputed k s = (xorBytes (s.slot k).hdrbuf.toList ^^^ xorBytes (srcBytes s)).setWidth 16 := by
  rw [recomputed, ← fold_append, fold_zero_eq_setWidth, xorBytes_append]

theorem setWidth_eq_iff (x : Byte) (c : Half) : x.setWidth 16 = c ↔ c.toNat / 256 = 0 ∧ c.setWidth 8 = x := by
  simp only [← BitVec.toNat_inj, BitVec.toNat_setWidth]
  omega

/-- Settles O31: the recomputed checksum is a zero-extended byte, so only a checksum of that form can equal it. -/
theorem validateSucceedsIffTheLowByteMatches : Obligations.ValidateSucceedsIffTheLowByteMatches := by
  intro s k p hp hstate hin
  obtain rfl : s.slot k = p := s.slot_of_get hp
  have hiff := setWidth_eq_iff (xorBytes (s.slot k).hdrbuf.toList ^^^ xorBytes (srcBytes s)) (s.slot k).checksum
  have hacc : (recomputed k s).toNat ≤ 0x00FF := by
    rw [recomputed, ← fold_append, fold_zero_toNat]
    exact Nat.le_of_lt_succ (BitVec.isLt _)
  rw [← recomputed_eq_setWidth] at hiff
  by_cases hck : recomputed k s = (s.slot k).checksum
  · refine ⟨_, exec_validate_ok hstate hin hck, ?_, .inl (codeField_statusWord ..), hacc⟩
    exact iff_of_true (codeField_statusWord ..) (hiff.mp hck)
  · refine ⟨_, exec_validate_checksum hstate hin hck, ?_, .inr (codeField_statusWord ..), hacc⟩
    refine iff_of_false (fun h => ?_) (mt hiff.mpr hck)
    cases codeBits_eq_zero.mp ((codeField_statusWord ..).symm.trans h)

end Sys2Proof.Machine
end

section
/-! How a slot moves, and what the slot commands read and write (spec 43_parser.md R140, R156). -/

namespace Sys2Proof.Machine

/-! ## The transitions of a slot -/

section
variable {k : Fin 16} {s t : State}

/-- A command writes no slot, or the one it names. -/
theorem exec_slots (i : Instr) (s : State) : ∃ t, exec i s = .next t ∧
    (t.slots = s.slots ∨ ∃ j p, i.slotOf = some j ∧ t.slots = s.slots.set j.val p) := by
  cases i with
  | pack => rcases execPack_cases s with ⟨_, h⟩ | ⟨_, h⟩ <;> exact ⟨_, h, .inl rfl⟩
  | unpack =>
    rcases execUnpack_cases s with ⟨_, h⟩ | ⟨_, _, h⟩ | ⟨_, _, h⟩ <;> exact ⟨_, h, .inl rfl⟩
  | csum => rcases checksumFrom_cases 0x03 s.args.seed s with ⟨_, h⟩ | ⟨_, h⟩ <;> exact ⟨_, h, .inl rfl⟩
  | csumc => rcases checksumFrom_cases 0x04 s.acc s with ⟨_, h⟩ | ⟨_, h⟩ <;> exact ⟨_, h, .inl rfl⟩
  | build =>
    rcases execBuild_cases s with ⟨_, h⟩ | ⟨_, _, h⟩ | ⟨_, _, _, h⟩ | ⟨_, _, _, h⟩ <;> exact ⟨_, h, .inl rfl⟩
  | parse k =>
    rcases execParse_cases k s with ⟨_, h⟩ | ⟨_, _, h⟩ | ⟨_, _, _, h⟩ | ⟨_, _, _, _, h⟩ | ⟨_, _, _, _, h⟩ <;>
      exact ⟨_, h, .inr ⟨k, _, rfl, rfl⟩⟩
  | validate k =>
    rcases execValidate_cases k s with ⟨_, h⟩ | ⟨_, _, h⟩ | ⟨_, _, _, h⟩ | ⟨_, _, _, h⟩
    · exact ⟨_, h, .inl rfl⟩
    · exact ⟨_, h, .inl rfl⟩
    · exact ⟨_, h, .inr ⟨k, _, rfl, rfl⟩⟩
    · exact ⟨_, h, .inr ⟨k, _, rfl, rfl⟩⟩
  | release k => exact ⟨_, exec_release k s, .inr ⟨k, _, rfl, rfl⟩⟩

theorem slot_eq_of_slots_eq (h : t.slots = s.slots) (n : Nat) : t.slot n = s.slot n := by
  rw [State.slot, h, State.slot]

theorem exec_slot_of_slotOf_ne {i : Instr} (h : exec i s = .next t) (hi : i.slotOf ≠ some k) :
    t.slot k = s.slot k := by
  obtain ⟨u, hu, hslots⟩ := exec_slots i s
  rw [next_inj (hu.symm.trans h)]
  rcases hslots with hslots | ⟨j, p, hj, hslots⟩
  · exact slot_eq_of_slots_eq hslots k
  · have hjk : j.val ≠ k.val := fun e => hi (Fin.ext e ▸ hj)
    exact (slot_eq_of_slots_eq (s := s.setSlot j p) hslots k).trans (s.slot_setSlot_other p hjk)

theorem parse_transition (hk : k.val < s.slots.length) (h : exec (.parse k) s = .next t) :
    (codeField t.status = 0 ∧ (t.slot k).state = .headerParsed) ∨
    ((codeField t.status = 1 ∨ codeField t.status = 7 ∨ codeField t.status = 2 ∨ codeField t.status = 4) ∧
      (t.slot k).state = .empty) := by
  rcases execParse_cases k s with ⟨_, he⟩ | ⟨_, _, he⟩ | ⟨_, _, _, he⟩ | ⟨_, _, _, _, he⟩ | ⟨_, _, _, _, he⟩ <;>
    rw [next_inj (he.symm.trans h)]
  case inr.inr.inr.inr =>
    exact .inl ⟨codeField_statusWord .., by rw [slot_setSlot_setOutcome s _ _ _ _ hk]; rfl⟩
  all_goals
    refine .inr ⟨?_, by rw [discardSlot, slot_setSlot_setOutcome s _ _ _ _ hk]; rfl⟩
    rw [State.setOutcome_status, codeField_statusWord]
    decide

theorem validate_transition (hk : k.val < s.slots.length) (h : exec (.validate k) s = .next t) :
    ((s.slot k).state = .headerParsed ∧
      ((codeField t.status = 0 ∧ (t.slot k).state = .validated) ∨
       (codeField t.status = 3 ∧ (t.slot k).state = .failed) ∨
       (codeField t.status = 7 ∧ t.slot k = s.slot k))) ∨
    ((s.slot k).state ≠ .headerParsed ∧ codeField t.status = 6 ∧ t.slot k = s.slot k) := by
  rcases execValidate_cases k s with ⟨hst, he⟩ | ⟨hst, _, he⟩ | ⟨hst, _, _, he⟩ | ⟨hst, _, _, he⟩ <;>
    rw [next_inj (he.symm.trans h)]
  · exact .inr ⟨hst, codeField_statusWord .., rfl⟩
  · exact .inl ⟨hst, .inr (.inr ⟨codeField_statusWord .., rfl⟩)⟩
  · exact .inl ⟨hst, .inr (.inl ⟨codeField_statusWord .., by
      rw [slot_setSlot_setOutcome (s.setAcc (recomputed k s)) _ _ _ _ hk]; rfl⟩)⟩
  · exact .inl ⟨hst, .inl ⟨codeField_statusWord .., by
      rw [slot_setSlot_setOutcome (s.setAcc (recomputed k s)) _ _ _ _ hk]; rfl⟩⟩

theorem release_transition (hk : k.val < s.slots.length) (h : exec (.release k) s = .next t) :
    codeField t.status = 0 ∧ (t.slot k).state = .empty := by
  rw [next_inj ((exec_release k s).symm.trans h), discardSlot, slot_setSlot_setOutcome s _ _ _ _ hk]
  exact ⟨codeField_statusWord .., rfl⟩

/-- A step that writes no command leaves the slots as they were (R18). -/
theorem step_slots_of_no_cmdWrite (hcmd : ∀ w rest, s.host ≠ .regWrite 4 0x000 w :: rest)
    (h : step s = .next t) : t.slots = s.slots := by
  rcases step_next_cases h with ⟨_, rfl⟩ | ⟨_, _, _, _, rfl⟩ | ⟨w, rest, _, hw, _⟩ | ⟨w, rest, _, hw, _⟩ |
    ⟨_, _, _, _, _, _, _, rfl⟩ | ⟨_, _, _, _, rfl⟩ | ⟨_, _, _, _, _, rfl⟩
  case inr.inr.inl | inr.inr.inr.inl => exact absurd hw (hcmd w rest)
  all_goals rfl

end

/-- Settles O33: one transition lemma for each slot command, and nothing else writes the slot. -/
theorem slotsMoveOnlyAsTheTransitionTableSays : Obligations.SlotsMoveOnlyAsTheTransitionTableSays := by
  refine ⟨fun s t i k hk h => ⟨?parse, ?validate, ?release, exec_slot_of_slotOf_ne h⟩, fun s t w e hw h => ?illegal,
    fun s t => step_slots_of_no_cmdWrite⟩
  case parse => rintro rfl; exact parse_transition hk h
  case validate => rintro rfl; exact validate_transition hk h
  case release => rintro rfl; exact release_transition hk h
  case illegal =>
    rw [next_inj ((command_of_decode_error hw).symm.trans h)]
    exact ⟨codeField_statusWord .., rfl⟩

/-! ## What a slot command reads and writes -/

/-- `u` agrees with `s` on all that a command on slot `k` reads (R156). -/
structure AgreesForSlot (k : Fin 16) (s u : State) : Prop where
  slot : u.slot k = s.slot k
  src : u.args.src = s.args.src
  len : u.args.len = s.args.len
  memSize : u.cfg.memSize = s.cfg.memSize
  mem : ∀ x, Memory.read u.mem x = Memory.read s.mem x

namespace AgreesForSlot
variable {k : Fin 16} {s u : State}

theorem refl (k : Fin 16) (s : State) : AgreesForSlot k s s := ⟨rfl, rfl, rfl, rfl, fun _ => rfl⟩

theorem srcAddr_eq (h : AgreesForSlot k s u) : srcAddr u = srcAddr s := congrArg BitVec.toNat h.src

theorem srcLen_eq (h : AgreesForSlot k s u) : srcLen u = srcLen s := congrArg BitVec.toNat h.len

theorem inBounds (h : AgreesForSlot k s u) {n : Nat} (hin : srcAddr s + n ≤ s.cfg.memSize) :
    srcAddr u + n ≤ u.cfg.memSize := by
  rwa [h.srcAddr_eq, h.memSize]

theorem outOfBounds (h : AgreesForSlot k s u) {n : Nat} (hout : s.cfg.memSize < srcAddr s + n) :
    u.cfg.memSize < srcAddr u + n := by
  rwa [h.srcAddr_eq, h.memSize]

theorem parsedHeader_eq (h : AgreesForSlot k s u) : parsedHeader u = parsedHeader s := by
  rw [parsedHeader, srcHeader, h.srcAddr_eq, Memory.readHeader_congr fun x _ _ => h.mem x]
  rfl

theorem recomputed_eq (h : AgreesForSlot k s u) : recomputed k u = recomputed k s := by
  rw [recomputed, srcBytes, h.slot, h.srcAddr_eq, h.srcLen_eq, Memory.readBytes_congr _ _ fun x _ _ => h.mem x]
  rfl

end AgreesForSlot

theorem State.setAcc_self (s : State) : s.setAcc s.acc = s := rfl

/-- `u` after a command that writes slot `k`, STATUS, ERRINFO and, where `acc` holds a value, ACC. -/
def State.writeSlotOutcome (k : Fin 16) (p : Slot) (op : Byte) (c : Code) (info : Word) (acc : Option Half)
    (u : State) : State :=
  ((u.setAcc (acc.getD u.acc)).setSlot k p).setOutcome op c info

/-- What `i` writes is the same from every state that agrees with `s` on what a command on slot `k` reads; ACC is
written by VALIDATE only (R156). -/
def WritesAlike (i : Instr) (k : Fin 16) (s : State) : Prop :=
  ∃ p op c info acc, (i ≠ .validate k → acc = none) ∧
    ∀ u : State, AgreesForSlot k s u → k.val < u.slots.length →
      exec i u = .next (u.writeSlotOutcome k p op c info acc)

section
variable (k : Fin 16) (s : State)

theorem parse_writesAlike : WritesAlike (.parse k) k s := by
  rcases execParse_cases k s with
    ⟨hlen, _⟩ | ⟨hlen, hout, _⟩ | ⟨hlen, hin, hsync, _⟩ | ⟨hlen, hin, hsync, hsize, _⟩ | ⟨hlen, hin, hsync, hsize, _⟩
  · refine ⟨Slot.empty, 0x06, .headerSizeError, s.args.len, none, fun _ => rfl, fun u hu _ => ?_⟩
    rw [exec_parse_headerSize (hu.len ▸ hlen), hu.len]
    rfl
  · refine ⟨Slot.empty, 0x06, .boundsError, s.args.src, none, fun _ => rfl, fun u hu _ => ?_⟩
    rw [exec_parse_bounds (hu.len ▸ hlen) (hu.outOfBounds hout), hu.src]
    rfl
  · refine ⟨Slot.empty, 0x06, .syncError, (parsedHeader s).sync.setWidth 32, none, fun _ => rfl, fun u hu _ => ?_⟩
    rw [← hu.parsedHeader_eq] at hsync ⊢
    exact exec_parse_sync (hu.len ▸ hlen) (hu.inBounds hin) hsync
  · refine ⟨Slot.empty, 0x06, .pktsizeError, (parsedHeader s).pktsize.setWidth 32, none, fun _ => rfl,
      fun u hu _ => ?_⟩
    rw [← hu.parsedHeader_eq] at hsync hsize ⊢
    exact exec_parse_pktsize (hu.len ▸ hlen) (hu.inBounds hin) hsync hsize
  · refine ⟨parsedSlot (parsedHeader s), 0x06, .ok, 0, none, fun _ => rfl, fun u hu _ => ?_⟩
    rw [← hu.parsedHeader_eq] at hsync hsize ⊢
    exact exec_parse_ok (hu.len ▸ hlen) (hu.inBounds hin) hsync hsize

theorem validate_writesAlike : WritesAlike (.validate k) k s := by
  rcases execValidate_cases k s with ⟨hst, _⟩ | ⟨hst, hout, _⟩ | ⟨hst, hin, hck, _⟩ | ⟨hst, hin, hck, _⟩
  · refine ⟨s.slot k, 0x07, .stateError, (slotStateBits (s.slot k).state).setWidth 32, none, absurd rfl,
      fun u hu hk => ?_⟩
    rw [← hu.slot] at hst ⊢
    rw [exec_validate_state hst, State.writeSlotOutcome, Option.getD_none, u.setAcc_self, u.setSlot_self hk]
  · refine ⟨s.slot k, 0x07, .boundsError, s.args.src, none, absurd rfl, fun u hu hk => ?_⟩
    rw [← hu.slot] at hst ⊢
    rw [← hu.srcLen_eq] at hout
    rw [exec_validate_bounds hst (hu.outOfBounds hout), hu.src, State.writeSlotOutcome, Option.getD_none,
      u.setAcc_self, u.setSlot_self hk]
  · refine ⟨failedSlot (s.slot k), 0x07, .checksumError, (recomputed k s).setWidth 32, some (recomputed k s),
      absurd rfl, fun u hu _ => ?_⟩
    rw [← hu.slot] at hst
    rw [← hu.srcLen_eq] at hin
    rw [← hu.slot, ← hu.recomputed_eq] at hck ⊢
    exact exec_validate_checksum hst (hu.inBounds hin) hck
  · refine ⟨validatedSlot (s.slot k) s.args.src s.args.len, 0x07, .ok, 0, some (recomputed k s), absurd rfl,
      fun u hu _ => ?_⟩
    rw [← hu.slot] at hst
    rw [← hu.srcLen_eq] at hin
    rw [← hu.slot, ← hu.recomputed_eq] at hck ⊢
    rw [← hu.src, ← hu.len]
    exact exec_validate_ok hst (hu.inBounds hin) hck

theorem release_writesAlike : WritesAlike (.release k) k s :=
  ⟨Slot.empty, 0x08, .ok, 0, none, fun _ => rfl, fun u _ _ => exec_release k u⟩

end

/-- Settles O34: the writes of each slot command are the same values from every state that agrees on what it reads,
`s` itself among them. -/
theorem slotCommandsAreIndependentOfOtherSlots : Obligations.SlotCommandsAreIndependentOfOtherSlots := by
  intro s i k hi hk
  have halike : WritesAlike i k s := by
    rcases hi with rfl | rfl | rfl
    · exact parse_writesAlike k s
    · exact validate_writesAlike k s
    · exact release_writesAlike k s
  obtain ⟨p, op, c, info, acc, hacc, hexec⟩ := halike
  refine ⟨p, statusWord op c, info, acc.getD s.acc, hexec s (.refl k s) hk, fun hne => by rw [hacc hne]; rfl,
    fun u huk hslot hsrc hlen hsize hmem => ⟨acc.getD u.acc, hexec u ⟨hslot, hsrc, hlen, hsize, hmem⟩ huk, ?_⟩⟩
  cases acc with
  | none => exact .inr ⟨rfl, rfl⟩
  | some v => exact .inl rfl

end Sys2Proof.Machine
end

section
/-! A packet that BUILD made, given to PARSE and VALIDATE as it is or with one bit flipped (spec 43_parser.md R152,
R153). -/

namespace Sys2Proof.Machine

/-! ## The packet in MEM -/

/-- A packet's payload 16 bytes further. Only a packet that ends at the top of the address space with no payload makes
the sum wrap, and then there is nothing to read. -/
theorem payload_at {dst : Word} {n size : Nat} (hdst : dst.toNat + (16 + n) ≤ size) (hsize : size ≤ 2 ^ 32) :
    (dst + 16).toNat + n ≤ size ∧
      ∀ m, Memory.readBytes m (dst + 16).toNat n = Memory.readBytes m (dst.toNat + 16) n := by
  have hsum : (dst + 16).toNat = (dst.toNat + 16) % 2 ^ 32 := BitVec.toNat_add dst 16
  cases n with
  | zero => exact ⟨by omega, fun _ => rfl⟩
  | succ n =>
    rw [Nat.mod_eq_of_lt (by omega)] at hsum
    exact ⟨by omega, fun m => by rw [hsum]⟩

theorem readBytes_packet {m : Memory} {s : State}
    (hm : Memory.readBytes m (dstAddr s) (16 + srcLen s) = builtPacket s) :
    Memory.readHeader m (dstAddr s) = builtHeader s (builtChecksum s) ∧
      Memory.readBytes m (dstAddr s + 16) (srcLen s) = srcBytes s := by
  rw [Memory.readBytes_append] at hm
  rw [← Vector.toList_inj, Memory.readHeader_toList]
  exact List.append_inj hm (by simp)

/-- The header fields PARSE reads from a packet that BUILD made. -/
def builtFields (s : State) : Header :=
  { sync := syncTriplet, msgtype := s.args.msgtype, pktsize := builtSize s, checksum := builtChecksum s, ts := argTs s }

theorem unpackHeader_builtHeader (s : State) : unpackHeader (builtHeader s (builtChecksum s)) = builtFields s :=
  unpackHeader_packHeader ..

theorem hdrbuf_builtFields (s : State) : (parsedSlot (builtFields s)).hdrbuf = builtHeader s 0 := rfl

theorem builtSize_toNat {s : State} (hlen : srcLen s ≤ 65519) : (builtSize s).toNat = 16 + srcLen s := by
  rw [builtSize_eq, BitVec.toNat_ofNat, Nat.mod_eq_of_lt (by omega)]

theorem builtSize_not_lt {s : State} (hlen : srcLen s ≤ 65519) : ¬ builtSize s < 16 := by
  have hsize := builtSize_toNat hlen
  bv_omega

theorem datasize_builtFields {s : State} (hlen : srcLen s ≤ 65519) :
    (parsedSlot (builtFields s)).datasize.toNat = srcLen s := by
  have hsize := builtSize_toNat hlen
  change (builtSize s - 16).toNat = srcLen s
  bv_omega

/-! ## PARSE and VALIDATE of a built packet -/

section
variable {s : State}

/-- PARSE of a packet that BUILD made passes every check. -/
theorem exec_parse_packet {u : State} (k : Fin 16) (hlen : srcLen s ≤ 65519)
    (hin : dstAddr s + (16 + srcLen s) ≤ u.cfg.memSize)
    (hm : Memory.readBytes u.mem (dstAddr s) (16 + srcLen s) = builtPacket s)
    (hsrc : u.args.src = s.args.dst) (harg : u.args.len = 16) :
    exec (.parse k) u = .next ((u.setSlot k (parsedSlot (builtFields s))).setOutcome 0x06 .ok 0) := by
  have haddr : srcAddr u = dstAddr s := congrArg BitVec.toNat hsrc
  have hheader : parsedHeader u = builtFields s := by
    rw [parsedHeader, srcHeader, haddr, (readBytes_packet hm).1, unpackHeader_builtHeader]
  rw [exec_parse_ok harg (by omega) (by rw [hheader]; rfl) (by rw [hheader]; exact builtSize_not_lt hlen), hheader]

/-- Over the payload it was computed from, VALIDATE recomputes the checksum of BUILD. -/
theorem recomputed_packet {w : State} {k : Fin 16} (hslot : w.slot k = parsedSlot (builtFields s))
    (hdata : srcBytes w = srcBytes s) : recomputed k w = builtChecksum s := by
  rw [recomputed, hslot, hdata, hdrbuf_builtFields, ← fold_append]
  rfl

end

/-- Settles O35: PARSE reads back the fields BUILD wrote, and VALIDATE recomputes its checksum over the same header and
data. -/
theorem buildParseValidateRoundTrips : Obligations.BuildParseValidateRoundTrips := by
  intro s k hwf hk hlen hsrc hdst
  obtain ⟨_, _, _, hsize⟩ := hwf
  have hpacket {m : Memory} (h : sameBytes (builtState s).mem m (dstAddr s) (16 + srcLen s)) :
      Memory.readBytes m (dstAddr s) (16 + srcLen s) = builtPacket s :=
    (Memory.readBytes_congr _ _ h).trans (readBytes_builtState s)
  refine ⟨builtState s, exec_build_inBounds hlen hsrc hdst, codeField_statusWord .., fun u hcfg hku hmem husrc hulen =>
    ⟨_, exec_parse_packet k hlen (hcfg ▸ hdst) (hpacket hmem) husrc hulen, codeField_statusWord .., ?_⟩⟩
  rw [slot_setSlot_setOutcome u _ _ _ _ hku]
  refine ⟨datasize_builtFields hlen, fun w hwcfg hkw hslot hwmem hwsrc hwlen => ?_⟩
  have hn : srcLen w = srcLen s := by
    rw [srcLen, hwlen, BitVec.toNat_setWidth_of_le (by decide), datasize_builtFields hlen]
  obtain ⟨hin, hread⟩ := payload_at hdst hsize
  have hdata : srcBytes w = srcBytes s := by
    rw [srcBytes, srcAddr, hwsrc, hn, hread]
    exact (readBytes_packet (hpacket hwmem)).2
  have hok := exec_validate_ok (k := k) (s := w) (by rw [hslot]; rfl) (by rw [srcAddr, hwsrc, hn, hwcfg]; exact hin)
    (by rw [recomputed_packet hslot hdata, hslot]; rfl)
  refine ⟨_, hok, codeField_statusWord .., ?_⟩
  rw [slot_setSlot_setOutcome (w.setAcc (recomputed k w)) _ _ _ _ hkw, hslot]
  exact ⟨rfl, rfl, rfl, datasize_builtFields hlen, hdata⟩

/-! ## What passes PARSE and VALIDATE -/

/-- A sequence whose checksum field holds the fold of the rest folds to 0: that fold is one byte, so the field's high
byte is 0 and its low byte cancels the rest. -/
theorem fold_eq_zero_of_checksum {l : List Byte} (hl : 7 < l.length)
    (h : fold ((l.set 6 0).set 7 0) 0 = be16 (l.getD 6 0) (l.getD 7 0)) : fold l 0 = 0 := by
  have hbyte (x : Byte) : x.setWidth 16 = be16 0#8 x := by revert x; decide
  have hzeroed := fold_zeroed_checksum l hl 0
  rw [fold_zero_eq_setWidth ((l.set 6 0).set 7 0)] at h hzeroed
  obtain ⟨hhigh, hlow⟩ := append_inj.mp ((hbyte _).symm.trans h)
  rw [hlow, ← hhigh, BitVec.zero_xor] at hzeroed
  exact (BitVec.xor_left_inj _).mp (hzeroed.symm.trans BitVec.zero_xor.symm)

/-- A packet that PARSE took in state `u` and whose checksum VALIDATE finds equal in state `w` folds to 0 over all its
bytes. -/
theorem fold_received_eq_zero {u w : State} {k : Fin 16} (hsync : (parsedHeader u).sync = syncTriplet)
    (hslot : w.slot k = parsedSlot (parsedHeader u)) (hck : recomputed k w = (w.slot k).checksum) :
    fold ((srcHeader u).toList ++ srcBytes w) 0 = 0 := by
  apply fold_eq_zero_of_checksum (by simp; omega)
  rw [List.set_append_left _ _ (by simp), List.set_append_left _ _ (by simp), ← hdrbuf_parsedSlot hsync, fold_append,
    ← hslot]
  refine hck.trans ?_
  rw [hslot]
  rfl

/-! ## One flipped bit -/

/-- MEM with bit `b` of one byte flipped. -/
def Memory.flipBit (m : Memory) (a b : Nat) : Memory := write m a (read m a ^^^ 1#8 <<< b)

theorem Memory.readBytes_write (m : Memory) (c : Byte) (n : Nat) : ∀ (a i : Nat), i < n →
    readBytes (write m (a + i) c) a n = (readBytes m a n).set i c := by
  induction n with
  | zero => exact nofun
  | succ n ih =>
    intro a i hi
    cases i with
    | zero =>
      have hrest : readBytes (write m a c) (a + 1) n = readBytes m (a + 1) n :=
        readBytes_congr n (a + 1) fun x h _ => read_write_other m a c (by omega)
      simp [readBytes, hrest]
    | succ i =>
      have hrest := ih (a + 1) i (Nat.lt_of_succ_lt_succ hi)
      rw [Nat.add_right_comm] at hrest
      simp [readBytes, ← Nat.add_assoc, hrest, read_write_other m (a + i + 1) c (x := a) (by omega)]

theorem Memory.readBytes_flipBit (m : Memory) {a i n : Nat} (hi : i < n) (b : Nat) :
    readBytes (flipBit m (a + i) b) a n =
      (readBytes m a n).set i ((readBytes m a n).getD i 0 ^^^ 1#8 <<< b) := by
  rw [flipBit, readBytes_write m _ n a i hi, getD_readBytes m n a i hi]

theorem Memory.read_flipBit_other (m : Memory) {a x : Nat} (h : x ≠ a) (b : Nat) : read (flipBit m a b) x = read m x :=
  read_write_other m a _ h

theorem sync_readHeader_iff (m : Memory) (a : Nat) :
    (unpackHeader (Memory.readHeader m a)).sync = syncTriplet ↔ Memory.readBytes m a 3 = [0xA3, 0x9D, 0x7A] := by
  rw [sync_eq_syncTriplet_iff]
  simp [Memory.readHeader, Memory.readBytes]

/-- A flipped bit is seen in the sync triplet exactly when it lies in the first three bytes. -/
theorem sync_flipBit_iff {m : Memory} {a x b : Nat} (hsync : (unpackHeader (Memory.readHeader m a)).sync = syncTriplet)
    (hb : b < 8) :
    (unpackHeader (Memory.readHeader (Memory.flipBit m (a + x) b) a)).sync = syncTriplet ↔ 2 < x := by
  rw [sync_readHeader_iff] at hsync ⊢
  by_cases hx : x < 3
  · rw [Memory.readBytes_flipBit m hx b, hsync]
    refine iff_of_false (fun h => ?_) (by omega)
    exact fold_flip_bit_ne (l := [0xA3, 0x9D, 0x7A]) hx hb 0 (congrArg (fold · 0) h)
  · refine iff_of_true ?_ (by omega)
    rw [← hsync]
    exact Memory.readBytes_congr 3 a fun y _ _ => Memory.read_flipBit_other m (by omega) b

theorem pktsize_flipBit {m : Memory} {a x b : Nat} (h4 : x ≠ 4) (h5 : x ≠ 5) :
    (unpackHeader (Memory.readHeader (Memory.flipBit m (a + x) b) a)).pktsize =
      (unpackHeader (Memory.readHeader m a)).pktsize :=
  congrArg₂ be16 (Memory.read_flipBit_other m (by omega) b) (Memory.read_flipBit_other m (by omega) b)

theorem fold_builtPacket (s : State) : fold (builtPacket s) 0 = 0 := by
  rw [builtPacket, builtChecksum, builtHeader_toList, builtHeader_toList, fold_checksummed]

/-- After BUILD, with one bit of the packet flipped and the operands set for PARSE. -/
def flippedState (s : State) (x b : Nat) : State :=
  { builtState s with
    mem := Memory.flipBit (builtState s).mem (dstAddr s + x) b
    args := { (builtState s).args with src := s.args.dst, len := 16 } }

section
variable {s : State} {x b : Nat}

theorem fold_flipped_ne_zero (hx : x < 16 + srcLen s) (hb : b < 8) :
    fold (Memory.readBytes (flippedState s x b).mem (dstAddr s) (16 + srcLen s)) 0 ≠ 0 := by
  rw [flippedState, Memory.readBytes_flipBit _ hx, readBytes_builtState]
  exact fun h => fold_flip_bit_ne (by rwa [length_builtPacket]) hb 0 (h.trans (fold_builtPacket s).symm)

theorem unpackHeader_builtState (s : State) :
    unpackHeader (Memory.readHeader (builtState s).mem (dstAddr s)) = builtFields s := by
  rw [(readBytes_packet (readBytes_builtState s)).1, unpackHeader_builtHeader]

theorem sync_flippedState_iff (hb : b < 8) : (parsedHeader (flippedState s x b)).sync = syncTriplet ↔ 2 < x :=
  sync_flipBit_iff (by rw [unpackHeader_builtState]; rfl) hb

theorem pktsize_flippedState (h4 : x ≠ 4) (h5 : x ≠ 5) : (parsedHeader (flippedState s x b)).pktsize = builtSize s :=
  (pktsize_flipBit h4 h5).trans (by rw [unpackHeader_builtState]; rfl)

/-- After a PARSE that took the flipped packet, with the operands set for VALIDATE. -/
def flippedParsedState (k : Fin 16) (s : State) (x b : Nat) : State :=
  let v := ((flippedState s x b).setSlot k (parsedSlot (parsedHeader (flippedState s x b)))).setOutcome 0x06 .ok 0
  { v with args := { v.args with src := s.args.dst + 16, len := s.args.len } }

/-- VALIDATE of a flipped packet that PARSE took raises CHECKSUM_ERROR: the packet folds to the flipped bit, not to 0. -/
theorem exec_validate_flipped {k : Fin 16} (hk : k.val < s.slots.length) (hx : x < 16 + srcLen s) (hb : b < 8)
    (hsync : (parsedHeader (flippedState s x b)).sync = syncTriplet)
    (hdst : dstAddr s + (16 + srcLen s) ≤ s.cfg.memSize) (hsize : s.cfg.memSize ≤ 2 ^ 32) :
    ∃ z, exec (.validate k) (flippedParsedState k s x b) = .next z ∧ codeField z.status = 3 ∧
      (z.slot k).state = .failed := by
  obtain ⟨hin, hread⟩ := payload_at hdst hsize
  have hslot : (flippedParsedState k s x b).slot k = parsedSlot (parsedHeader (flippedState s x b)) :=
    slot_setSlot_setOutcome (flippedState s x b) _ 0x06 .ok 0 hk
  have hstate : ((flippedParsedState k s x b).slot k).state = .headerParsed := by rw [hslot]; rfl
  have hlen : (flippedParsedState k s x b).args.len = s.args.len := rfl
  have hbounds : srcAddr (flippedParsedState k s x b) + srcLen (flippedParsedState k s x b) ≤
      (flippedParsedState k s x b).cfg.memSize := by
    rw [srcLen, hlen]
    exact hin
  have hdata : srcBytes (flippedParsedState k s x b) =
      Memory.readBytes (flippedState s x b).mem (dstAddr s + 16) (srcLen s) := by
    rw [srcBytes, srcLen, hlen]
    exact hread _
  have hck : recomputed k (flippedParsedState k s x b) ≠ ((flippedParsedState k s x b).slot k).checksum := by
    intro hck
    apply fold_flipped_ne_zero hx hb
    rw [Memory.readBytes_append, ← hdata, ← Memory.readHeader_toList]
    exact fold_received_eq_zero hsync hslot hck
  refine ⟨_, exec_validate_checksum hstate hbounds hck, codeField_statusWord .., ?_⟩
  rw [slot_setSlot_setOutcome ((flippedParsedState k s x b).setAcc _) _ _ _ _
    (hk.trans_eq (List.length_set ..).symm)]
  rfl

end

/-- Settles O36: PARSE sees a flip in the sync triplet or one that makes pktsize too small; every other flip it takes, and
VALIDATE then finds it. -/
theorem singleBitCorruptionNeverValidates : Obligations.SingleBitCorruptionNeverValidates := by
  intro s k x b hwf hk hlen hsrc hdst hx hb
  obtain ⟨_, _, _, hsize⟩ := hwf
  have hin : srcAddr (flippedState s x b) + 16 ≤ (flippedState s x b).cfg.memSize := by
    change dstAddr s + 16 ≤ s.cfg.memSize
    omega
  have hbuild := exec_build_inBounds hlen hsrc hdst
  by_cases hx2 : 2 < x
  case neg =>
    have hparse := exec_parse_sync (k := k) rfl hin (mt (sync_flippedState_iff hb).mp hx2)
    exact ⟨_, _, hbuild, hparse, fun _ => codeField_statusWord .., by omega, fun h => absurd h hx2⟩
  have hsync : (parsedHeader (flippedState s x b)).sync = syncTriplet := (sync_flippedState_iff hb).mpr hx2
  by_cases hps : (parsedHeader (flippedState s x b)).pktsize < 16
  case pos =>
    have hx45 : x = 4 ∨ x = 5 := by
      by_contra hne
      rw [not_or] at hne
      exact builtSize_not_lt hlen (pktsize_flippedState hne.1 hne.2 ▸ hps)
    have hparse := exec_parse_pktsize (k := k) rfl hin hsync hps
    exact ⟨_, _, hbuild, hparse, by omega, fun _ _ => codeField_statusWord .., fun _ h => absurd ⟨hx45, hps⟩ h⟩
  case neg =>
    have hparse := exec_parse_ok (k := k) rfl hin hsync hps
    exact ⟨_, _, hbuild, hparse, by omega, fun _ h => absurd h hps,
      fun _ _ => ⟨codeField_statusWord .., exec_validate_flipped hk hx hb hsync hdst hsize⟩⟩

end Sys2Proof.Machine
end

section
/-! The state right after reset, as the registers show it (spec 70_reset_and_hazards.md R230). -/

namespace Sys2Proof.Machine

variable {cfg : Config} {m : Memory}

@[simp] theorem slot_resetWith (k : Nat) : (State.resetWith cfg m).slot k = Slot.empty :=
  List.getElem?_getD_replicate_default_eq ..

theorem readSlotReg_empty (q : SlotReg) : readSlotReg Slot.empty q = 0 := by
  cases q <;> rfl

/-- Every register but the three configuration registers holds 0 right after reset. -/
theorem readReg_resetWith {r : Reg} (hid : r ≠ .cfgId) (hnum : r ≠ .cfgNumSlots) (hmem : r ≠ .cfgMemLast) :
    readReg (State.resetWith cfg m) r = 0 := by
  cases r with
  | cfgId | cfgNumSlots | cfgMemLast => contradiction
  | slot k q => rw [readReg, slot_resetWith, readSlotReg_empty]
  | _ => rfl

/-- The five bits of CFG_NUM_SLOTS hold every legal NUM_SLOTS (R7). -/
theorem readOffset_cfgNumSlots_of_wf {s : State} (hwf : s.cfg.wf) :
    readOffset s 0x084 = BitVec.ofNat 32 s.cfg.numSlots := by
  obtain ⟨_, hslots, _, _⟩ := hwf
  rw [readOffset_cfgNumSlots]
  apply BitVec.eq_of_toNat_eq
  rw [BitVec.toNat_setWidth, BitVec.toNat_ofNat, BitVec.toNat_ofNat]
  omega

/-- Each configuration register has one offset, so any other offset holds a register that reset clears, or none. -/
theorem readOffset_resetWith_of_ne {off : BitVec 12} (hid : off ≠ 0x080) (hnum : off ≠ 0x084) (hmem : off ≠ 0x088) :
    readOffset (State.resetWith cfg m) off = 0 := by
  cases hreg : regAt cfg.numSlots off with
  | none => exact readOffset_unmapped hreg
  | some r =>
    have hoff : off = BitVec.ofNat 12 (regOffset r) := by simp [(regOffset_of_regAt hreg).1]
    have hread : readOffset (State.resetWith cfg m) off = readReg (State.resetWith cfg m) r := by
      simp only [readOffset, State.resetWith, hreg]
    rw [hread]
    apply readReg_resetWith <;> rintro rfl <;> contradiction

/-- Settles O1: only the configuration registers read other than 0, and the slots are copies of the empty one. -/
theorem resetReadsTheResetColumn : Obligations.ResetReadsTheResetColumn := by
  intro cfg m hwf
  refine ⟨fun off => ?_, List.length_replicate, fun p hp => ?_⟩
  · split_ifs with hid hnum hmem
    · exact hid ▸ readOffset_cfgId _
    · exact hnum ▸ readOffset_cfgNumSlots_of_wf hwf
    · exact hmem ▸ readOffset_cfgMemLast _
    · exact readOffset_resetWith_of_ne hid hnum hmem
  · cases List.eq_of_mem_replicate hp
    exact ⟨rfl, rfl, rfl, rfl, rfl, rfl, rfl, rfl, rfl⟩

end Sys2Proof.Machine
end

section
/-! What a command reads and what it writes, as data: every command is one outcome together with the values it leaves in
ACC, RES, one slot and one run of MEM bytes. -/

namespace Sys2Proof.Machine

/-! ## The effect of a command -/

/-- What a command writes: CODE and ERRINFO, and where it writes them, ACC, the RES registers, a slot, and the bytes
from `dst` on. -/
structure Effect where
  code : Code
  info : Word
  acc : Option Half := none
  res : Option ResRegs := none
  slot : Option (Fin 16 × Slot) := none
  dst : Nat := 0
  bytes : List Byte := []

/-- The slots with the one of an effect written. -/
def Effect.slotsOn (e : Effect) (l : List Slot) : List Slot :=
  match e.slot with
  | some (k, p) => l.set k p
  | none => l

/-- `s` with the writes of an effect made, under LASTOP `op`. -/
def Effect.on (e : Effect) (op : Byte) (s : State) : State :=
  { s with
    status := statusWord op e.code
    errinfo := e.info
    acc := e.acc.getD s.acc
    res := e.res.getD s.res
    slots := e.slotsOn s.slots
    mem := Memory.writeBytes s.mem e.dst e.bytes }

/-- The effect CSUM and CSUMC share (R120, R121). -/
def checksumEffect (seed : Half) (s : State) : Effect :=
  if ¬ InBounds s (srcAddr s) (srcLen s) then { code := .boundsError, info := s.args.src }
  else { code := .ok, info := 0, acc := some (fold (srcBytes s) seed) }

/-- What each command writes, its checks in the order of the spec. -/
def effect (i : Instr) (s : State) : Effect :=
  match i with
  | .pack =>
    if ¬ InBounds s (dstAddr s) 16 then { code := .boundsError, info := s.args.dst }
    else { code := .ok, info := 0, dst := dstAddr s, bytes := (packedHeader s).toList }
  | .unpack =>
    if s.args.len ≠ 16 then { code := .headerSizeError, info := s.args.len }
    else if ¬ InBounds s (srcAddr s) 16 then { code := .boundsError, info := s.args.src }
    else { code := .ok, info := 0, res := some (resOf (unpackHeader (srcHeader s))) }
  | .csum => checksumEffect s.args.seed s
  | .csumc => checksumEffect s.acc s
  | .build =>
    if maxPayload < srcLen s then { code := .lengthError, info := s.args.len }
    else if ¬ InBounds s (srcAddr s) (srcLen s) then { code := .boundsError, info := s.args.src }
    else if ¬ InBounds s (dstAddr s) (16 + srcLen s) then { code := .boundsError, info := s.args.dst }
    else
      { code := .ok, info := 0, acc := some (builtChecksum s), res := some (builtRes s), dst := dstAddr s,
        bytes := builtPacket s }
  | .parse k =>
    let h := parsedHeader s
    if s.args.len ≠ 16 then { code := .headerSizeError, info := s.args.len, slot := some (k, Slot.empty) }
    else if ¬ InBounds s (srcAddr s) 16 then
      { code := .boundsError, info := s.args.src, slot := some (k, Slot.empty) }
    else if h.sync ≠ syncTriplet then
      { code := .syncError, info := h.sync.setWidth 32, slot := some (k, Slot.empty) }
    else if h.pktsize < 16 then
      { code := .pktsizeError, info := h.pktsize.setWidth 32, slot := some (k, Slot.empty) }
    else { code := .ok, info := 0, slot := some (k, parsedSlot h) }
  | .validate k =>
    let p := s.slot k
    let c := recomputed k s
    if p.state ≠ .headerParsed then { code := .stateError, info := (slotStateBits p.state).setWidth 32 }
    else if ¬ InBounds s (srcAddr s) (srcLen s) then { code := .boundsError, info := s.args.src }
    else if c ≠ p.checksum then
      { code := .checksumError, info := c.setWidth 32, acc := some c, slot := some (k, failedSlot p) }
    else { code := .ok, info := 0, acc := some c, slot := some (k, validatedSlot p s.args.src s.args.len) }
  | .release k => { code := .ok, info := 0, slot := some (k, Slot.empty) }

theorem checksumFrom_eq (op : Byte) (seed : Half) (s : State) :
    checksumFrom op seed s = .next ((checksumEffect seed s).on op s) := by
  unfold checksumFrom checksumEffect
  split_ifs <;> rfl

theorem execParse_eq_effect (k : Fin 16) (s : State) :
    exec (.parse k) s = .next ((effect (.parse k) s).on 0x06 s) := by
  have hset : (discardSlot k s).setSlot k (parsedSlot (parsedHeader s)) = s.setSlot k (parsedSlot (parsedHeader s)) := by
    simp [discardSlot, State.setSlot]
  rw [execParse_eq, hset]
  simp only [effect]
  split_ifs <;> rfl

/-- A command makes the writes of its effect and no other. -/
theorem exec_eq_effect (i : Instr) (s : State) : exec i s = .next ((effect i s).on i.opcode s) := by
  cases i with
  | pack => simp only [exec, execPack, effect]; split_ifs <;> rfl
  | unpack => simp only [exec, execUnpack, effect]; split_ifs <;> rfl
  | csum => exact checksumFrom_eq ..
  | csumc => exact checksumFrom_eq ..
  | build => simp only [exec, execBuild, effect]; split_ifs <;> rfl
  | parse k => exact execParse_eq_effect k s
  | validate k => simp only [exec, execValidate, effect]; split_ifs <;> rfl
  | release k => rfl

theorem eq_effect_of_exec {i : Instr} {s t : State} (h : exec i s = .next t) : t = (effect i s).on i.opcode s :=
  next_inj ((exec_eq_effect i s).symm.trans h)

theorem codeField_effect (i : Instr) (s : State) :
    codeField ((effect i s).on i.opcode s).status = codeBits (effect i s).code :=
  codeField_statusWord ..

end Sys2Proof.Machine
end

section
/-! The invariant of the machine: reset meets it and every step keeps it. -/

namespace Sys2Proof.Machine

/-! ## The writes of an effect keep the invariant -/

theorem effect_info_of_ok {i : Instr} {s : State} (h : (effect i s).code = .ok) : (effect i s).info = 0 := by
  cases i with
  | release k => rfl
  | _ =>
    simp only [effect, checksumEffect] at h ⊢
    split_ifs at h ⊢
    all_goals rfl

/-- The bytes a command writes lie in MEM; a command that writes none has the empty range at 0. -/
theorem effect_bytes_inBounds (i : Instr) (s : State) :
    (effect i s).dst + (effect i s).bytes.length ≤ s.cfg.memSize := by
  cases i with
  | pack =>
    simp only [effect]
    split_ifs with h
    · exact h
    · exact Nat.zero_le _
  | build =>
    simp only [effect]
    split_ifs with hlen hsrc hdst
    · exact Nat.zero_le _
    · rw [length_builtPacket]
      exact hdst
    · exact Nat.zero_le _
    · exact Nat.zero_le _
  | release k => exact Nat.zero_le _
  | _ =>
    simp only [effect, checksumEffect]
    split_ifs <;> exact Nat.zero_le _

theorem slotInv_empty (n : Nat) : Slot.empty.inv n :=
  ⟨fun _ => rfl, fun h => absurd rfl h, fun _ => ⟨rfl, rfl⟩, nofun⟩

theorem slotInv_parsedSlot (n : Nat) {h : Header} (hsize : ¬ h.pktsize < 16) : (parsedSlot h).inv n := by
  refine ⟨nofun, fun _ => ⟨?_, ?_, rfl⟩, fun _ => ⟨rfl, rfl⟩, nofun⟩
  · exact Nat.not_lt.mp hsize
  · change (h.pktsize - 16).toNat = h.pktsize.toNat - 16
    bv_omega

theorem slotInv_failedSlot {n : Nat} {p : Slot} (hp : p.inv n) (hstate : p.state = .headerParsed) :
    (failedSlot p).inv n := by
  obtain ⟨_, hheader, hpayload, _⟩ := hp
  exact ⟨nofun, fun _ => hheader (by simp [hstate]), fun _ => hpayload (by simp [hstate]), nofun⟩

theorem slotInv_validatedSlot {n : Nat} {p : Slot} {src len : Word} (hp : p.inv n) (hstate : p.state = .headerParsed)
    (hin : src.toNat + len.toNat ≤ n) (hck : p.checksum.toNat < 256) : (validatedSlot p src len).inv n := by
  obtain ⟨_, hheader, _, _⟩ := hp
  exact ⟨nofun, fun _ => hheader (by simp [hstate]), fun h => absurd rfl h, fun _ => ⟨hin, hck⟩⟩

/-- The checksum VALIDATE recomputes is below 256 (R151). -/
theorem recomputed_lt (k : Fin 16) (s : State) : (recomputed k s).toNat < 256 := by
  rw [recomputed, ← fold_append, fold_zero_toNat]
  exact BitVec.isLt _

theorem slotInv_slot {s : State} (hs : ∀ p ∈ s.slots, p.inv s.cfg.memSize) (k : Nat) :
    (s.slot k).inv s.cfg.memSize := by
  by_cases hk : k < s.slots.length
  · exact hs _ (List.mem_of_getElem? (s.get_of_lt hk))
  · rw [State.slot, List.getD_eq_default _ _ (Nat.not_lt.mp hk)]
    exact slotInv_empty _

/-- The slot a command writes has a legal shape. -/
theorem effect_slotInv {i : Instr} {s : State} (hs : ∀ p ∈ s.slots, p.inv s.cfg.memSize) {k : Fin 16} {p : Slot}
    (h : (effect i s).slot = some (k, p)) : p.inv s.cfg.memSize := by
  cases i with
  | parse j =>
    simp only [effect] at h
    split_ifs at h with hlen hin hsync hsize <;> cases h
    case neg => exact slotInv_parsedSlot _ hsize
    all_goals exact slotInv_empty _
  | validate j =>
    simp only [effect] at h
    split_ifs at h with hstate hin hck <;> cases h
    · exact slotInv_failedSlot (slotInv_slot hs _) (not_not.mp hstate)
    · exact slotInv_validatedSlot (slotInv_slot hs _) (not_not.mp hstate) hin
        (not_not.mp hck ▸ recomputed_lt _ s)
  | release j =>
    cases h
    exact slotInv_empty _
  | _ =>
    simp only [effect, checksumEffect] at h
    split_ifs at h

theorem effect_slotsInv {i : Instr} {s : State} (hs : ∀ p ∈ s.slots, p.inv s.cfg.memSize) :
    ∀ p ∈ (effect i s).slotsOn s.slots, p.inv s.cfg.memSize := by
  intro p hp
  unfold Effect.slotsOn at hp
  split at hp
  · rename_i k q hq
    rcases List.mem_or_eq_of_mem_set hp with hp | rfl
    · exact hs p hp
    · exact effect_slotInv hs hq
  · exact hs p hp

@[simp] theorem Effect.length_slotsOn (e : Effect) (l : List Slot) : (e.slotsOn l).length = l.length := by
  unfold Effect.slotsOn
  split <;> simp

/-! ## Commands and steps keep the invariant -/

theorem exec_inv {i : Instr} {s t : State} (hinv : s.inv) (h : exec i s = .next t) : t.inv := by
  obtain ⟨hcfg, hlen, hslots, hmem, _⟩ := hinv
  rw [eq_effect_of_exec h]
  exact ⟨hcfg, (Effect.length_slotsOn _ _).trans hlen, effect_slotsInv hslots,
    Memory.memInv_writeBytes _ hmem (effect_bytes_inBounds i s), statusInv_statusWord _ _ _ effect_info_of_ok⟩

/-- Settles O3: a command keeps the invariant, and any other step writes MEM, ARG registers or the model's own fields
only, or raises ILLEGAL_COMMAND. -/
theorem everyStepKeepsTheInvariant : Obligations.EveryStepKeepsTheInvariant := by
  intro s t hinv h
  rcases step_next_cases h with ⟨_, rfl⟩ | ⟨_, _, _, _, rfl⟩ | ⟨_, rest, _, _, _, hx⟩ | ⟨w, _, _, _, _, rfl⟩ |
    ⟨_, _, _, _, _, _, _, rfl⟩ | ⟨_, _, _, _, rfl⟩ | ⟨_, b, _, _, ha, rfl⟩
  case inr.inr.inl =>
    have htaken : (s.taken rest).inv := hinv
    exact exec_inv htaken hx
  case inr.inr.inr.inl =>
    obtain ⟨hcfg, hlen, hslots, hmem, _⟩ := hinv
    exact ⟨hcfg, hlen, hslots, hmem, statusInv_statusWord _ _ _ nofun⟩
  case inr.inr.inr.inr.inr.inr =>
    obtain ⟨hcfg, hlen, hslots, hmem, hstatus⟩ := hinv
    exact ⟨hcfg, hlen, hslots, Memory.memInv_write b hmem ha, hstatus⟩
  all_goals exact hinv

/-! ## Reset -/

theorem resetWith_inv {cfg : Config} {m : Memory} (hcfg : cfg.wf) (hm : memInv cfg.memSize m) :
    (State.resetWith cfg m).inv := by
  refine ⟨hcfg, List.length_replicate, fun p hp => ?_, hm, ?_⟩
  · rw [List.eq_of_mem_replicate hp]
    exact slotInv_empty _
  · exact statusInv_statusWord 0 .ok 0 fun _ => rfl

/-- Settles O2: every slot is the empty one, and STATUS and ERRINFO are 0. -/
theorem resetMeetsTheInvariant : Obligations.ResetMeetsTheInvariant :=
  ⟨fun _ _ => resetWith_inv, resetWith_inv (by decide) ⟨Memory.wf_reset, nofun⟩⟩

end Sys2Proof.Machine
end

section
/-! The command word: decode and encode undo each other, and a CMD write runs the command its word encodes (spec
30_encoding.md R60 to R63, R70; 10_state.md R20). -/

namespace Sys2Proof.Machine

theorem commandWord_fields (i : Instr) : Laws.CommandWord.Statement i := by
  cases i with
  | pack => exact Laws.CommandWord.pack
  | unpack => exact Laws.CommandWord.unpack
  | csum => exact Laws.CommandWord.csum
  | csumc => exact Laws.CommandWord.csumc
  | build => exact Laws.CommandWord.build
  | parse k => exact Laws.CommandWord.parse k
  | validate k => exact Laws.CommandWord.validate k
  | release k => exact Laws.CommandWord.release k

/-- The three fields of a command word are all of it (R60). -/
theorem word_ext {w v : Word} (hopc : opcField w = opcField v) (hslot : slotField w = slotField v)
    (hrsv : rsvField w = rsvField v) : w = v := by
  have hopc' := congrArg BitVec.toNat hopc
  have hslot' := congrArg Fin.val hslot
  have hrsv' := congrArg BitVec.toNat hrsv
  rw [opcField_toNat, opcField_toNat] at hopc'
  rw [slotField_val, slotField_val] at hslot'
  rw [rsvField_toNat, rsvField_toNat] at hrsv'
  apply BitVec.eq_of_toNat_eq
  omega

theorem decode_encode {n : Nat} {i : Instr} (hwf : i.wf n = true) : decode n (encode i) = .ok i := by
  obtain ⟨hopc, hslot, hrsv, _⟩ := commandWord_fields i
  rw [decode, hrsv, hopc, hslot, if_neg (not_not.mpr rfl)]
  cases i with
  | pack | unpack | csum | csumc | build => rfl
  | parse k | validate k | release k => exact if_pos (of_decide_eq_true hwf)

theorem encode_of_decode_ok {n : Nat} {w : Word} {i : Instr} (h : decode n w = .ok i) : encode i = w := by
  obtain ⟨hrsv, hopc, hslot, _⟩ := fields_of_decode_ok h
  obtain ⟨hopc', hslot', hrsv', _⟩ := commandWord_fields i
  exact word_ext (hopc'.trans hopc.symm) (hslot'.trans hslot.symm) (hrsv'.trans hrsv.symm)

/-- Settles O13: a word that decodes has the three fields of the command's encoding, and no more stands in a word. -/
theorem decodeAndEncodeAreInverse : Obligations.DecodeAndEncodeAreInverse := by
  refine fun n w i => ⟨fun h => ?_, fun ⟨hwf, hw⟩ => hw ▸ decode_encode hwf⟩
  obtain ⟨_, _, _, hwf⟩ := fields_of_decode_ok h
  exact ⟨hwf, encode_of_decode_ok h⟩

/-- Settles O12: the words written out are the encodings. -/
theorem writtenOutWordsDecode : Obligations.WrittenOutWordsDecode := fun n =>
  have slotted {i : Instr} {k : Fin 16} (hi : i.wf n = decide (k.val < n)) (hk : k.val < n) :
      decode n (encode i) = .ok i := decode_encode (hi.trans (decide_eq_true hk))
  ⟨decode_encode (i := .pack) rfl, decode_encode (i := .unpack) rfl, decode_encode (i := .csum) rfl,
    decode_encode (i := .csumc) rfl, decode_encode (i := .build) rfl, fun k hk =>
    ⟨slotted (i := .parse k) rfl hk, slotted (i := .validate k) rfl hk, slotted (i := .release k) rfl hk⟩⟩

theorem command_of_decode_ok {w : Word} {s : State} {i : Instr} (h : decode s.cfg.numSlots w = .ok i) :
    command w s = exec i s := by
  rw [command, h]

/-- Settles O11: a CMD write is `command` of its word, and CMD reads 0. -/
theorem stepRunsTheDecodedCommand : Obligations.StepRunsTheDecodedCommand :=
  ⟨fun _ _ _ _ hs hw => (step_cmdWrite hs).trans (command_of_decode_ok hw), fun _ _ hs => step_regRead hs rfl⟩

end Sys2Proof.Machine
end

section
/-! The register interface: what each mapped offset reads, and what a write changes (spec 10_state.md R19, R40). -/

namespace Sys2Proof.Machine

/-! ## The register at an offset -/

theorem slotRegAt_slotRegOffset (q : SlotReg) : slotRegAt (slotRegOffset q) = some q := by
  cases q <;> rfl

theorem slotRegOffset_le (q : SlotReg) : slotRegOffset q ≤ 0x20 := by
  obtain ⟨j, hj, hq⟩ := slotRegOffset_eq_word q
  omega

theorem slotWindowAt_slot {n k : Nat} (hk : k < n) (q : SlotReg) :
    slotWindowAt n (0x100 + 0x40 * k + slotRegOffset q) = some (.slot k q) := by
  have hq := slotRegOffset_le q
  have hdiv : (0x100 + 0x40 * k + slotRegOffset q - 0x100) / 0x40 = k := by omega
  have hmod : (0x100 + 0x40 * k + slotRegOffset q - 0x100) % 0x40 = slotRegOffset q := by omega
  rw [slotWindowAt, hdiv, hmod, if_pos ⟨by omega, hk⟩, slotRegAt_slotRegOffset]
  rfl

/-- The offset of a slot's register holds that register, on a block that has the slot (R19). -/
theorem regAt_slot {n k : Nat} (hk : k < n) (hk16 : k < 16) (q : SlotReg) :
    regAt n (BitVec.ofNat 12 (0x100 + 0x40 * k + slotRegOffset q)) = some (.slot k q) := by
  have hq := slotRegOffset_le q
  have hoff : (BitVec.ofNat 12 (0x100 + 0x40 * k + slotRegOffset q)).toNat = 0x100 + 0x40 * k + slotRegOffset q := by
    rw [BitVec.toNat_ofNat]
    omega
  unfold regAt
  rw [hoff]
  split
  case h_23 => exact slotWindowAt_slot hk q
  all_goals omega

/-! ## What a read of each offset returns -/

theorem readOffset_slot {s : State} {k : Nat} (hk : k < s.cfg.numSlots) (hk16 : k < 16) (q : SlotReg) :
    readOffset s (BitVec.ofNat 12 (0x100 + 0x40 * k + slotRegOffset q)) = readSlotReg (s.slot k) q := by
  rw [readOffset, regAt_slot hk hk16]
  rfl

theorem slotStateBits_eq (st : SlotState) : (slotStateBits st).setWidth 32 =
    if st = .empty then 0 else if st = .headerParsed then 1 else if st = .validated then 2 else (3 : Word) := by
  cases st <;> rfl

theorem stampHi_eq_setWidth_shift (ts : Stamp) : stampHi ts = (ts >>> 32).setWidth 32 :=
  BitVec.setWidth_ushiftRight_eq_extractLsb.symm

theorem stampLo_eq_setWidth (ts : Stamp) : stampLo ts = ts.setWidth 32 :=
  (BitVec.setWidth_eq_extractLsb' (by decide)).symm

/-- Settles O5: each offset of the list holds its register, and a slot's offsets those of its window. -/
theorem mappedOffsetsReadTheirRegisters : Obligations.MappedOffsetsReadTheirRegisters := by
  refine fun s => ⟨?_, fun k p hk16 hk hp => ?_⟩
  · simp only [List.forall_mem_cons, List.not_mem_nil, false_imp_iff, implies_true, and_true]
    exact ⟨rfl, rfl, rfl, rfl, rfl, rfl, rfl, rfl, rfl, rfl, rfl, rfl, rfl, rfl, rfl, rfl, rfl, rfl, rfl⟩
  · have hread := readOffset_slot hk hk16
    rw [s.slot_of_get hp] at hread
    rw [← slotStateBits_eq, ← stampHi_eq_setWidth_shift, ← stampLo_eq_setWidth]
    simp only [List.forall_mem_cons, List.not_mem_nil, false_imp_iff, implies_true, and_true]
    exact ⟨hread .state, hread .msgtype, hread .pktsize, hread .checksum, hread .tsHi, hread .tsLo, hread .datasize,
      hread .pbase, hread .plen⟩

/-! ## What a write changes -/

/-- The registers a host write stores in, with the number of bits each implements (R25 to R30). -/
def argWidth (r : Reg) : Option Nat :=
  match r with
  | .argMsgtype => some 8
  | .argPktsize | .argChecksum | .argSeed => some 16
  | .argTsHi | .argTsLo | .argSrc | .argLen | .argDst => some 32
  | _ => none

theorem readReg_writeReg_same {r : Reg} {w : Nat} (hw : argWidth r = some w) (v : Word) (s : State) :
    readReg (writeReg r v s) r = (v.setWidth w).setWidth 32 := by
  cases r with
  | argMsgtype | argPktsize | argChecksum | argSeed => cases hw; rfl
  | argTsHi | argTsLo | argSrc | argLen | argDst => cases hw; exact (BitVec.setWidth_eq _).symm
  | _ => cases hw

/-- A register write leaves what every other register reads as it was. -/
theorem readReg_writeReg_other {r q : Reg} (h : q ≠ r) (v : Word) (s : State) :
    readReg (writeReg r v s) q = readReg s q := by
  cases q with
  | argMsgtype | argPktsize | argChecksum | argSeed | argTsHi | argTsLo | argSrc | argLen | argDst =>
    cases r <;> trivial
  | _ => cases r <;> rfl

theorem writeReg_readOnly {r : Reg} (hr : argWidth r = none) (v : Word) (s : State) : writeReg r v s = s := by
  cases r with
  | argMsgtype | argPktsize | argChecksum | argSeed | argTsHi | argTsLo | argSrc | argLen | argDst => cases hr
  | _ => rfl

section
variable {s : State} {off : BitVec 12} {r : Reg}

theorem readOffset_of_regAt (h : regAt s.cfg.numSlots off = some r) : readOffset s off = readReg s r := by
  rw [readOffset, h]

theorem writeReg_cfg (r : Reg) (v : Word) (s : State) : (writeReg r v s).cfg = s.cfg := by
  obtain ⟨a, ha⟩ := writeReg_is_setArgs r v s
  rw [ha, State.setArgs_cfg]

theorem readOffset_writeReg_other (h : regAt s.cfg.numSlots off = some r) (v : Word) {off' : BitVec 12}
    (hne : off' ≠ off) : readOffset (writeReg r v s) off' = readOffset s off' := by
  cases hreg : regAt s.cfg.numSlots off' with
  | none =>
    rw [readOffset_unmapped hreg, readOffset_unmapped (writeReg_cfg r v s ▸ hreg)]
  | some q =>
    have hqr : q ≠ r := by
      rintro rfl
      exact hne (BitVec.eq_of_toNat_eq ((regOffset_of_regAt hreg).1.symm.trans (regOffset_of_regAt h).1))
    rw [readOffset_of_regAt hreg, readOffset_of_regAt (writeReg_cfg r v s ▸ hreg), readReg_writeReg_other hqr]

theorem writeOffset_of_regAt (h : regAt s.cfg.numSlots off = some r) (hr : r ≠ .cmd) (v : Word) :
    writeOffset off v s = .next (writeReg r v s) := by
  cases r with
  | cmd => exact absurd rfl hr
  | _ => rw [writeOffset, h]

/-- An aligned offset that is not CMD's nor an ARG register's ignores writes (R40, R42). -/
theorem writeOffset_readOnly
    (hoff : off ∉ ([0x000, 0x010, 0x014, 0x018, 0x01C, 0x020, 0x024, 0x028, 0x02C, 0x030] : List (BitVec 12)))
    (v : Word) : writeOffset off v s = .next s := by
  cases hreg : regAt s.cfg.numSlots off with
  | none => exact writeOffset_unmapped v hreg
  | some q =>
    have hmap : off = BitVec.ofNat 12 (regOffset q) := by simp [(regOffset_of_regAt hreg).1]
    have hq : q ≠ .cmd := by
      rintro rfl
      exact hoff (hmap ▸ by decide)
    have hwidth : argWidth q = none := by
      cases q with
      | argMsgtype | argPktsize | argChecksum | argSeed | argTsHi | argTsLo | argSrc | argLen | argDst =>
        exact absurd (hmap ▸ by decide) hoff
      | _ => rfl
    rw [writeOffset_of_regAt hreg hq, writeReg_readOnly hwidth]

/-- A write of an ARG register of `w` bits: it keeps the low `w` bits, and every other offset reads as before (R40). -/
theorem step_argWrite {v : Word} {rest : List HostStep} {w : Nat} (hs : s.host = .regWrite 4 off v :: rest)
    (hreg : regAt s.cfg.numSlots off = some r) (hw : argWidth r = some w) (halign : off.toNat % 4 = 0) :
    ∃ a, step s = .next ((s.taken rest).setArgs a) ∧
      readOffset ((s.taken rest).setArgs a) off = (v.setWidth w).setWidth 32 ∧
      ∀ off', off' ≠ off → readOffset ((s.taken rest).setArgs a) off' = readOffset s off' := by
  obtain ⟨a, ha⟩ := writeReg_is_setArgs r v (s.taken rest)
  have hcmd : r ≠ .cmd := by
    rintro rfl
    cases hw
  have htaken : regAt (s.taken rest).cfg.numSlots off = some r := hreg
  refine ⟨a, ?_⟩
  rw [← ha]
  refine ⟨?_, ?_, fun off' hne => readOffset_writeReg_other htaken v hne⟩
  · rw [step_regWrite hs halign, writeOffset_of_regAt htaken hcmd]
  · rw [readOffset_of_regAt (writeReg_cfg r v (s.taken rest) ▸ htaken), readReg_writeReg_same hw]

end

/-- Settles O7: a read changes nothing but the reply, a write of an ARG register that register, and any other write but
one to CMD nothing. -/
theorem registerAccessesFollowTheirAccessKind : Obligations.RegisterAccessesFollowTheirAccessKind := by
  refine ⟨fun s off rest halign hs => step_regRead hs halign, fun s v rest => ?_,
    fun s off v rest halign hoff hs => (step_regWrite hs halign).trans (writeOffset_readOnly hoff v)⟩
  simp only [List.forall_mem_cons, List.not_mem_nil, false_imp_iff, implies_true, and_true]
  exact ⟨(step_argWrite (r := .argMsgtype) · rfl rfl rfl), (step_argWrite (r := .argPktsize) · rfl rfl rfl),
    (step_argWrite (r := .argChecksum) · rfl rfl rfl), (step_argWrite (r := .argSeed) · rfl rfl rfl),
    (step_argWrite (r := .argTsHi) · rfl rfl rfl), (step_argWrite (r := .argTsLo) · rfl rfl rfl),
    (step_argWrite (r := .argSrc) · rfl rfl rfl), (step_argWrite (r := .argLen) · rfl rfl rfl),
    (step_argWrite (r := .argDst) · rfl rfl rfl)⟩

end Sys2Proof.Machine
end

section
/-! What commands may touch: the frame of a command, and what it reads (spec 10_state.md R17 to R24, 30_encoding.md R67,
20_memory.md R51). -/

namespace Sys2Proof.Machine

/-! ## What a command writes -/

section
variable {i : Instr} {s : State}

theorem effect_acc_eq_none (hcsum : i ≠ .csum) (hcsumc : i ≠ .csumc) (hbuild : i ≠ .build)
    (hvalidate : ∀ k, i ≠ .validate k) : (effect i s).acc = none := by
  cases i with
  | csum | csumc | build => contradiction
  | validate k => exact absurd rfl (hvalidate k)
  | release k => rfl
  | pack | unpack | parse k =>
    simp only [effect]
    split_ifs <;> rfl

theorem effect_res_eq_none (hunpack : i ≠ .unpack) (hbuild : i ≠ .build) : (effect i s).res = none := by
  cases i with
  | unpack | build => contradiction
  | release k => rfl
  | pack | csum | csumc | parse k | validate k =>
    simp only [effect, checksumEffect]
    split_ifs <;> rfl

theorem effect_bytes_eq_nil (hpack : i ≠ .pack) (hbuild : i ≠ .build) : (effect i s).bytes = [] := by
  cases i with
  | pack | build => contradiction
  | release k => rfl
  | unpack | csum | csumc | parse k | validate k =>
    simp only [effect, checksumEffect]
    split_ifs <;> rfl

theorem effect_slot_eq_none (h : i.slotOf = none) : (effect i s).slot = none := by
  cases i with
  | parse k | validate k | release k => cases h
  | pack | unpack | csum | csumc | build =>
    simp only [effect, checksumEffect]
    split_ifs <;> rfl

end

/-- A step that writes no command changes MEM, ARG registers and the model's own fields only (R18). -/
theorem step_frame_of_no_cmdWrite {s t : State} (hcmd : ∀ w rest, s.host ≠ .regWrite 4 0x000 w :: rest)
    (h : step s = .next t) : t.acc = s.acc ∧ t.res = s.res ∧ t.errinfo = s.errinfo := by
  rcases step_next_cases h with ⟨_, rfl⟩ | ⟨_, _, _, _, rfl⟩ | ⟨w, rest, _, hw, _⟩ | ⟨w, rest, _, hw, _⟩ |
    ⟨_, _, _, _, _, _, _, rfl⟩ | ⟨_, _, _, _, rfl⟩ | ⟨_, _, _, _, _, rfl⟩
  case inr.inr.inl | inr.inr.inr.inl => exact absurd hw (hcmd w rest)
  all_goals exact ⟨rfl, rfl, rfl⟩

/-- Settles O40: the effect of a command holds no value for what the command does not name. -/
theorem registersChangeOnlyByTheirCommands : Obligations.RegistersChangeOnlyByTheirCommands := by
  refine ⟨fun i s t h => ?_, fun s t hcmd h => ?_⟩
  · rw [eq_effect_of_exec h]
    refine ⟨rfl, rfl, rfl, rfl, fun h1 h2 h3 h4 => ?acc, fun h1 h2 => ?res, fun h1 h2 => ?mem, fun hi => ?slots⟩
    case acc => simp only [Effect.on, effect_acc_eq_none h1 h2 h3 h4, Option.getD_none]
    case res => simp only [Effect.on, effect_res_eq_none h1 h2, Option.getD_none]
    case mem => simp only [Effect.on, effect_bytes_eq_nil h1 h2, Memory.writeBytes]
    case slots => simp only [Effect.on, Effect.slotsOn, effect_slot_eq_none hi]
  · obtain ⟨hacc, hres, hinfo⟩ := step_frame_of_no_cmdWrite hcmd h
    exact ⟨hacc, hres, step_status_of_no_cmdWrite hcmd h, hinfo, step_slots_of_no_cmdWrite hcmd h⟩

/-! ## What a command reads -/

/-- The operand table (R67): `a` and `b` hold the same in the ARG registers that a command reads. -/
def SameOperands (i : Instr) (a b : ArgRegs) : Prop :=
  match i with
  | .pack => a.dst = b.dst ∧ a.msgtype = b.msgtype ∧ a.pktsize = b.pktsize ∧ a.checksum = b.checksum ∧
      a.tsHi = b.tsHi ∧ a.tsLo = b.tsLo
  | .unpack => a.src = b.src ∧ a.len = b.len
  | .csum => a.src = b.src ∧ a.len = b.len ∧ a.seed = b.seed
  | .csumc => a.src = b.src ∧ a.len = b.len
  | .build => a.msgtype = b.msgtype ∧ a.tsHi = b.tsHi ∧ a.tsLo = b.tsLo ∧ a.src = b.src ∧ a.len = b.len ∧
      a.dst = b.dst
  | .parse _ => a.src = b.src ∧ a.len = b.len
  | .validate _ => a.src = b.src ∧ a.len = b.len
  | .release _ => True

theorem SameOperands.refl (i : Instr) (a : ArgRegs) : SameOperands i a a := by
  cases i <;> simp [SameOperands]

/-- `u` agrees with `s` on all that a command reads: MEM_SIZE, its operands, its MEM range, the slots and, for CSUMC, ACC
(R24, R51, R67). -/
structure ReadsAlike (i : Instr) (s u : State) : Prop where
  memSize : u.cfg.memSize = s.cfg.memSize
  operands : SameOperands i u.args s.args
  mem : sameBytes s.mem u.mem (readRange i s).1 (readRange i s).2
  slots : u.slots = s.slots
  acc : i = .csumc → u.acc = s.acc

theorem sameBytes_refl (m : Memory) (a n : Nat) : sameBytes m m a n := fun _ _ _ => rfl

section
variable {s u : State}

theorem srcAddr_congr (hsrc : u.args.src = s.args.src) : srcAddr u = srcAddr s := congrArg BitVec.toNat hsrc

theorem srcLen_congr (hlen : u.args.len = s.args.len) : srcLen u = srcLen s := congrArg BitVec.toNat hlen

theorem dstAddr_congr (hdst : u.args.dst = s.args.dst) : dstAddr u = dstAddr s := congrArg BitVec.toNat hdst

theorem argTs_congr (hhi : u.args.tsHi = s.args.tsHi) (hlo : u.args.tsLo = s.args.tsLo) : argTs u = argTs s := by
  rw [argTs, hhi, hlo, argTs]

theorem srcHeader_congr (hsrc : u.args.src = s.args.src) (hmem : sameBytes s.mem u.mem (srcAddr s) 16) :
    srcHeader u = srcHeader s := by
  rw [srcHeader, srcAddr_congr hsrc, Memory.readHeader_congr hmem, srcHeader]

theorem srcBytes_congr (hsrc : u.args.src = s.args.src) (hlen : u.args.len = s.args.len)
    (hmem : sameBytes s.mem u.mem (srcAddr s) (srcLen s)) : srcBytes u = srcBytes s := by
  rw [srcBytes, srcAddr_congr hsrc, srcLen_congr hlen, Memory.readBytes_congr _ _ hmem, srcBytes]

theorem checksumEffect_congr (hsize : u.cfg.memSize = s.cfg.memSize) (hsrc : u.args.src = s.args.src)
    (hlen : u.args.len = s.args.len) (hmem : sameBytes s.mem u.mem (srcAddr s) (srcLen s)) (seed : Half) :
    checksumEffect seed u = checksumEffect seed s := by
  simp only [checksumEffect, InBounds, hsize, hsrc, srcAddr_congr hsrc, srcLen_congr hlen, srcBytes_congr hsrc hlen hmem]

/-- A command writes the same from every state that agrees on what it reads. -/
theorem effect_congr {i : Instr} (h : ReadsAlike i s u) : effect i u = effect i s := by
  obtain ⟨hsize, hops, hmem, hslots, hacc⟩ := h
  cases i with
  | pack =>
    obtain ⟨hdst, hmt, hps, hck, hhi, hlo⟩ := hops
    simp only [effect, InBounds, hsize, hdst, dstAddr_congr hdst, packedHeader, hmt, hps, hck, argTs_congr hhi hlo]
  | unpack =>
    obtain ⟨hsrc, hlen⟩ := hops
    simp only [effect, InBounds, hsize, hsrc, hlen, srcAddr_congr hsrc, srcHeader_congr hsrc hmem]
  | csum =>
    obtain ⟨hsrc, hlen, hseed⟩ := hops
    rw [effect, hseed, checksumEffect_congr hsize hsrc hlen hmem, effect]
  | csumc =>
    obtain ⟨hsrc, hlen⟩ := hops
    rw [effect, hacc rfl, checksumEffect_congr hsize hsrc hlen hmem, effect]
  | build =>
    obtain ⟨hmt, hhi, hlo, hsrc, hlen, hdst⟩ := hops
    have hhead (ck : Half) : builtHeader u ck = builtHeader s ck := by
      rw [builtHeader, builtSize, hmt, hlen, argTs_congr hhi hlo, builtHeader, builtSize]
    have hck : builtChecksum u = builtChecksum s := by
      rw [builtChecksum, hhead, srcBytes_congr hsrc hlen hmem, builtChecksum]
    have hres : builtRes u = builtRes s := by
      rw [builtRes, builtSize, hmt, hlen, hck, argTs_congr hhi hlo, builtRes, builtSize]
    simp only [effect, InBounds, hsize, hsrc, hlen, hdst, srcAddr_congr hsrc, srcLen_congr hlen, dstAddr_congr hdst,
      builtPacket, hhead, hck, hres, srcBytes_congr hsrc hlen hmem]
  | parse k =>
    obtain ⟨hsrc, hlen⟩ := hops
    have hheader : parsedHeader u = parsedHeader s := congrArg unpackHeader (srcHeader_congr hsrc hmem)
    simp only [effect, InBounds, hsize, hsrc, hlen, srcAddr_congr hsrc, hheader]
  | validate k =>
    obtain ⟨hsrc, hlen⟩ := hops
    have hslot : u.slot k = s.slot k := slot_eq_of_slots_eq hslots k
    have hck : recomputed k u = recomputed k s := by
      rw [recomputed, srcBytes_congr hsrc hlen hmem, hslot, recomputed]
    simp only [effect, InBounds, hsize, hsrc, hlen, hslot, srcAddr_congr hsrc, srcLen_congr hlen, hck]
  | release k => rfl

theorem exec_of_readsAlike {i : Instr} (h : ReadsAlike i s u) : exec i u = .next ((effect i s).on i.opcode u) := by
  rw [exec_eq_effect, effect_congr h]

end

/-- Settles O42: the other ARG registers are no input of the effect, and no effect writes them. -/
theorem commandsReadOnlyTheirOperands : Obligations.CommandsReadOnlyTheirOperands := by
  intro i s t a h hops
  have hsame : SameOperands i a s.args := by cases i <;> exact hops
  rw [eq_effect_of_exec h]
  exact exec_of_readsAlike ⟨rfl, hsame, sameBytes_refl _ _ _, rfl, fun _ => rfl⟩

/-- Where an effect may leave a register as it was, it leaves the value after it or the one before it. -/
theorem getD_eq_or {α : Type} (o : Option α) (a b : α) : o.getD a = o.getD b ∨ o.getD a = a ∧ o.getD b = b := by
  cases o with
  | none => exact .inr ⟨rfl, rfl⟩
  | some v => exact .inl rfl

/-- Settles O41: ACC is an input of the effect of CSUMC only. -/
theorem onlyCsumcReadsTheAccumulator : Obligations.OnlyCsumcReadsTheAccumulator := by
  intro i s t a hi h
  rw [eq_effect_of_exec h]
  exact ⟨(effect i s).acc.getD a,
    exec_of_readsAlike ⟨rfl, .refl i _, sameBytes_refl _ _ _, rfl, fun e => absurd e hi⟩, getD_eq_or _ a s.acc⟩

/-- Settles O43: STATUS, ERRINFO and the RES registers are no input of any effect, and every effect writes the first
two. -/
theorem commandsReadNeitherStatusNorResults : Obligations.CommandsReadNeitherStatusNorResults := by
  intro i s t st info r h
  rw [eq_effect_of_exec h]
  exact ⟨(effect i s).res.getD r, exec_of_readsAlike ⟨rfl, .refl i _, sameBytes_refl _ _ _, rfl, fun _ => rfl⟩,
    getD_eq_or _ r s.res⟩

/-! ## The MEM ranges -/

/-- The bytes a command writes fill its write range, or it raised and wrote none. -/
theorem effect_bytes_writeRange (i : Instr) (s : State) :
    ((effect i s).bytes = [] ∧ (effect i s).code ≠ .ok) ∨
      writeRange i s = ((effect i s).dst, (effect i s).bytes.length) := by
  cases i with
  | pack =>
    simp only [effect]
    split_ifs
    · exact .inr (by simp [writeRange])
    · exact .inl ⟨rfl, nofun⟩
  | build =>
    simp only [effect]
    split_ifs
    · exact .inl ⟨rfl, nofun⟩
    · exact .inr (by simp [writeRange])
    · exact .inl ⟨rfl, nofun⟩
    · exact .inl ⟨rfl, nofun⟩
  | release k => exact .inr rfl
  | unpack | csum | csumc | parse k | validate k =>
    simp only [effect, checksumEffect]
    split_ifs <;> exact .inr rfl

/-- A command changes no byte outside its write range, whatever MEM it runs on. -/
theorem sameOutside_effect (i : Instr) (s : State) (m : Memory) :
    sameOutside m (Memory.writeBytes m (effect i s).dst (effect i s).bytes) (writeRange i s).1 (writeRange i s).2 := by
  rcases effect_bytes_writeRange i s with ⟨hnil, _⟩ | hrange
  · rw [hnil]
    exact fun _ _ => rfl
  · rw [hrange]
    exact Memory.sameOutside_writeBytes _ _ _

/-- What was written reads alike, whatever MEM it was written over. -/
theorem Memory.sameBytes_writeBytes (m m' : Memory) (a : Nat) (l : List Byte) :
    sameBytes (writeBytes m a l) (writeBytes m' a l) a l.length := fun x hlo hhi => by
  rw [read_writeBytes, if_pos ⟨hlo, hhi⟩, read_writeBytes, if_pos ⟨hlo, hhi⟩]

/-- Settles O44: the effect is the same on both memories, and its bytes fill the write range. -/
theorem commandsAccessOnlyTheirMemRanges : Obligations.CommandsAccessOnlyTheirMemRanges := by
  intro i s t m h hmem
  rw [eq_effect_of_exec h]
  refine ⟨sameOutside_effect i s s.mem, Memory.writeBytes m (effect i s).dst (effect i s).bytes,
    exec_of_readsAlike ⟨rfl, .refl i _, hmem, rfl, fun _ => rfl⟩, sameOutside_effect i s m, fun hok => ?_⟩
  rcases effect_bytes_writeRange i s with ⟨_, hraise⟩ | hrange
  · exact absurd (codeBits_eq_zero.mp ((codeField_effect i s).symm.trans hok)) hraise
  · rw [hrange]
    exact Memory.sameBytes_writeBytes _ _ _ _

end Sys2Proof.Machine
end

section
/-! How a command raises: the writes before the raise, and the operand a BOUNDS_ERROR names (spec 60_exceptions.md R203,
20_memory.md R49, R50). -/

namespace Sys2Proof.Machine

/-! ## Errors are precise -/

theorem codeBits_eq_three {c : Code} : codeBits c = 3 ↔ c = .checksumError := by cases c <;> simp [codeBits]

theorem codeBits_eq_seven {c : Code} : codeBits c = 7 ↔ c = .boundsError := by cases c <;> simp [codeBits]

section
variable {s : State}

/-- A command with neither Discard nor a checksum to compare raises before it writes anything. -/
theorem effect_of_raise {i : Instr} (hparse : ∀ k, i ≠ .parse k) (h : (effect i s).code ≠ .ok)
    (hck : (effect i s).code ≠ .checksumError) :
    effect i s = { code := (effect i s).code, info := (effect i s).info } := by
  cases i with
  | parse k => exact absurd rfl (hparse k)
  | release k => exact absurd rfl h
  | pack | unpack | csum | csumc | build | validate k =>
    simp only [effect, checksumEffect] at h hck ⊢
    split_ifs at h hck ⊢ <;> trivial

theorem effect_parse_of_raise {k : Fin 16} (h : (effect (.parse k) s).code ≠ .ok) :
    (effect (.parse k) s).code ≠ .checksumError ∧
      effect (.parse k) s =
        { code := (effect (.parse k) s).code, info := (effect (.parse k) s).info, slot := some (k, Slot.empty) } := by
  simp only [effect] at h ⊢
  split_ifs at h ⊢
  case neg => exact absurd rfl h
  all_goals exact ⟨nofun, rfl⟩

/-- Only VALIDATE raises CHECKSUM_ERROR, with the recomputed checksum (R150). -/
theorem effect_of_checksumError {i : Instr} (h : (effect i s).code = .checksumError) :
    ∃ k, i = .validate k ∧
      effect i s = { code := .checksumError, info := (recomputed k s).setWidth 32, acc := some (recomputed k s),
                     slot := some (k, failedSlot (s.slot k)) } := by
  cases i with
  | validate k =>
    refine ⟨k, rfl, ?_⟩
    simp only [effect] at h ⊢
    split_ifs at h ⊢
    rfl
  | release k => cases h
  | pack | unpack | csum | csumc | build | parse k =>
    simp only [effect, checksumEffect] at h
    split_ifs at h

end

theorem codeField_on_eq_three {i : Instr} {s : State} :
    codeField ((effect i s).on i.opcode s).status = 3 ↔ (effect i s).code = .checksumError := by
  rw [codeField_effect, codeBits_eq_three]

theorem codeField_on_eq_zero {i : Instr} {s : State} :
    codeField ((effect i s).on i.opcode s).status = 0 ↔ (effect i s).code = .ok := by
  rw [codeField_effect, codeBits_eq_zero]

/-- Settles O38: CHECKSUM_ERROR is raised after the writes of ACC and the slot, PARSE's errors after Discard, and the
others before any write. -/
theorem errorsArePrecise : Obligations.ErrorsArePrecise := by
  intro i s t h hraise
  obtain rfl := eq_effect_of_exec h
  rw [Ne, codeField_on_eq_zero] at hraise
  refine ⟨lastopField_statusWord .., statusInv_statusWord _ _ _ (absurd · hraise), ?_⟩
  rw [Ne, codeField_on_eq_three]
  by_cases hck : (effect i s).code = .checksumError
  · obtain ⟨k, rfl, he⟩ := effect_of_checksumError hck
    refine .inr (.inr ⟨k, rfl, hck, ?_⟩)
    rw [he]
    simp [Effect.on, Effect.slotsOn, failedSlot, Memory.writeBytes]
  by_cases hparse : ∃ k, i = .parse k
  · obtain ⟨k, rfl⟩ := hparse
    refine .inr (.inl ⟨k, rfl, hck, ?_⟩)
    rw [(effect_parse_of_raise hraise).2]
    rfl
  · have hparse' : ∀ k, i ≠ .parse k := not_exists.mp hparse
    refine .inl ⟨?_, hparse', hck⟩
    rw [effect_of_raise hparse' hraise hck]
    rfl

/-! ## The operand a BOUNDS_ERROR names -/

/-- The MEM operands of a command: base and number of bytes (R49, R51). -/
def memOperands (i : Instr) (s : State) : List (Word × Nat) :=
  match i with
  | .pack => [(s.args.dst, 16)]
  | .unpack => [(s.args.src, 16)]
  | .csum => [(s.args.src, s.args.len.toNat)]
  | .csumc => [(s.args.src, s.args.len.toNat)]
  | .build => [(s.args.src, s.args.len.toNat), (s.args.dst, 16 + s.args.len.toNat)]
  | .parse _ => [(s.args.src, 16)]
  | .validate _ => [(s.args.src, s.args.len.toNat)]
  | .release _ => []

theorem memOperands_inBounds_of_ok {i : Instr} {s : State} (h : (effect i s).code = .ok) :
    ∀ o ∈ memOperands i s, o.1.toNat + o.2 ≤ s.cfg.memSize := by
  cases i with
  | release k => nofun
  | build =>
    simp only [effect] at h
    split_ifs at h with hlen hsrc hdst
    exact List.forall_mem_cons.mpr ⟨hsrc, List.forall_mem_singleton.mpr hdst⟩
  | pack | unpack | csum | csumc | parse k | validate k =>
    simp only [effect, checksumEffect] at h
    split_ifs at h
    exact List.forall_mem_singleton.mpr ‹_›

theorem memOperand_of_boundsError {i : Instr} {s : State} (h : (effect i s).code = .boundsError) :
    ∃ o ∈ memOperands i s, (effect i s).info = o.1 ∧ s.cfg.memSize < o.1.toNat + o.2 := by
  cases i with
  | release k => cases h
  | build =>
    simp only [effect] at h ⊢
    split_ifs at h ⊢ with hlen hsrc hdst
    · exact ⟨_, List.mem_cons_of_mem _ List.mem_cons_self, rfl, Nat.not_le.mp hdst⟩
    · exact ⟨_, List.mem_cons_self, rfl, Nat.not_le.mp hsrc⟩
  | pack | unpack | csum | csumc | parse k | validate k =>
    simp only [effect, checksumEffect] at h ⊢
    split_ifs at h ⊢
    exact ⟨_, List.mem_cons_self, rfl, Nat.not_le.mp ‹_›⟩

/-- A command that raises writes no MEM byte (R203). -/
theorem mem_of_raise {i : Instr} {s t : State} (h : exec i s = .next t) (hraise : codeField t.status ≠ 0) :
    t.mem = s.mem := by
  obtain ⟨_, _, ⟨ht, _⟩ | ⟨_, _, _, ht⟩ | ⟨_, _, _, ht⟩⟩ := errorsArePrecise i s t h hraise
  all_goals exact (congrArg State.mem ht :)

/-- Settles O39: the checks a command passed are those of its operands, and the one it failed gives ERRINFO. -/
theorem boundsErrorsNameTheOperand : Obligations.BoundsErrorsNameTheOperand := by
  intro i s t h src dst operands
  have hoperands : operands = memOperands i s := by cases i <;> rfl
  rw [hoperands]
  refine ⟨fun hok => ?_, fun hbounds => ⟨mem_of_raise h (by simp [hbounds]), ?_⟩⟩
  all_goals obtain rfl := eq_effect_of_exec h
  · exact memOperands_inBounds_of_ok (codeField_on_eq_zero.mp hok)
  · exact memOperand_of_boundsError (codeBits_eq_seven.mp ((codeField_effect i s).symm.trans hbounds))

end Sys2Proof.Machine
end

section
/-! Host steps on MEM, memories in canonical form, and the statements on the wire layout, the split checksum, the high
byte of a checksum and the first BUILD after reset. -/

namespace Sys2Proof.Machine

/-! ## Host steps on MEM -/

section
variable {s : State} {a : Nat} {rest : List HostStep}

theorem step_memRead (hs : s.host = .memRead a :: rest) (ha : a < s.cfg.memSize) :
    step s = .next ((s.setHost rest).setReply (some (.byte (Memory.read s.mem a)))) :=
  (step_eq_hostStep hs).trans (if_pos ha)

theorem step_memWrite {b : Byte} (hs : s.host = .memWrite a b :: rest) (ha : a < s.cfg.memSize) :
    step s = .next ((s.taken rest).setMem (Memory.write s.mem a b)) :=
  (step_eq_hostStep hs).trans (if_pos ha)

end

/-- Settles O9: a byte read back after a write is the byte written, and any other address reads as before. -/
theorem hostMemoryAccessesTouchOneByte : Obligations.HostMemoryAccessesTouchOneByte := fun s a _ ha =>
  ⟨fun b hs => ⟨_, step_memWrite hs ha, Memory.read_write_same s.mem a b, fun _ => Memory.read_write_other s.mem a b⟩,
    fun hs => step_memRead hs ha⟩

/-! ## Memories in canonical form -/

namespace Memory

theorem wf_cons {c : Host.Cell} {m : Memory} : wf (c :: m) ↔ (∀ d ∈ m, c.1 < d.1) ∧ c.2 ≠ unlisted ∧ m.wf := by
  simp only [wf, List.pairwise_cons, List.forall_mem_cons]
  tauto

/-- An address that no cell has reads as unlisted. -/
theorem read_eq_unlisted {m : Memory} {a : Nat} (h : ∀ c ∈ m, c.1 ≠ a) : read m a = unlisted := by
  induction m with
  | nil => rfl
  | cons c m ih =>
    obtain ⟨hc, hm⟩ := List.forall_mem_cons.mp h
    rw [read, if_neg hc, ih hm]

theorem read_cons_same (c : Host.Cell) (m : Memory) : read (c :: m) c.1 = c.2 := if_pos rfl

theorem read_cons_other {c : Host.Cell} {m : Memory} {a : Nat} (h : c.1 ≠ a) : read (c :: m) a = read m a := if_neg h

/-- A canonical memory lists nothing below the first address of one that it reads like. -/
theorem le_of_read_cons {c d : Host.Cell} {m m' : Memory} (hm : wf (c :: m)) (hm' : wf (d :: m'))
    (h : ∀ a, read (c :: m) a = read (d :: m') a) : d.1 ≤ c.1 := by
  obtain ⟨_, hc, _⟩ := wf_cons.mp hm
  obtain ⟨hd, _, _⟩ := wf_cons.mp hm'
  by_contra hlt
  refine hc ?_
  rw [← read_cons_same c m, h]
  refine read_eq_unlisted (List.forall_mem_cons.mpr ⟨by omega, fun e he => ?_⟩)
  have := hd e he
  omega

theorem eq_of_read_eq {m : Memory} : ∀ {m' : Memory}, m.wf → m'.wf → (∀ a, read m a = read m' a) → m = m' := by
  induction m with
  | nil =>
    intro m' _ hm' h
    cases m' with
    | nil => rfl
    | cons d m' =>
      obtain ⟨_, hd, _⟩ := wf_cons.mp hm'
      exact absurd ((read_cons_same d m').symm.trans (h d.1).symm) hd
  | cons c m ih =>
    intro m' hm hm' h
    cases m' with
    | nil =>
      obtain ⟨_, hc, _⟩ := wf_cons.mp hm
      exact absurd ((read_cons_same c m).symm.trans (h c.1)) hc
    | cons d m' =>
      have haddr : c.1 = d.1 := Nat.le_antisymm (le_of_read_cons hm' hm fun a => (h a).symm) (le_of_read_cons hm hm' h)
      have hbyte : c.2 = d.2 := by
        rw [← read_cons_same c m, h, haddr, read_cons_same]
      obtain ⟨hlow, _, hwf⟩ := wf_cons.mp hm
      obtain ⟨hlow', _, hwf'⟩ := wf_cons.mp hm'
      rw [Prod.ext haddr hbyte, ih hwf hwf' fun a => ?_]
      by_cases ha : c.1 = a
      · rw [read_eq_unlisted fun e he => by have := hlow e he; omega,
          read_eq_unlisted fun e he => by have := hlow' e he; omega]
      · rw [← read_cons_other ha, h, read_cons_other (haddr ▸ ha)]

end Memory

/-- Settles O10: two such memories start with the same cell, and the rest of them reads alike. -/
theorem canonicalMemoriesThatReadAlikeAreEqual : Obligations.CanonicalMemoriesThatReadAlikeAreEqual :=
  fun _ _ => Memory.eq_of_read_eq

/-! ## The wire layout -/

/-- Settles O15: PackHeader is the wire layout and UnpackHeader undoes it. -/
theorem headerBytesAreTheWireLayout : Obligations.HeaderBytesAreTheWireLayout := fun mt ps ck hi lo =>
  ⟨packHeader_toList mt ps ck hi lo, unpackHeader_packHeader mt ps ck (hi ++ lo)⟩

/-! ## The checksum of a split range -/

theorem exec_csum_inBounds {s : State} (h : srcAddr s + srcLen s ≤ s.cfg.memSize) :
    exec .csum s = .next ((s.setAcc (fold (srcBytes s) s.args.seed)).setOutcome 0x03 .ok 0) :=
  (exec_csum s).trans (checksumFrom_inBounds 0x03 s.args.seed h)

theorem exec_csumc_inBounds {s : State} (h : srcAddr s + srcLen s ≤ s.cfg.memSize) :
    exec .csumc s = .next ((s.setAcc (fold (srcBytes s) s.acc)).setOutcome 0x04 .ok 0) :=
  (exec_csumc s).trans (checksumFrom_inBounds 0x04 s.acc h)

/-- The second part of a range starts where the first ends. Only a range that ends at the top of the address space with
nothing in its second part makes the sum wrap, and then there is nothing to read. -/
theorem second_part_at {src : Word} {n m size : Nat} (hin : src.toNat + (n + m) ≤ size) (hsize : size ≤ 2 ^ 32) :
    (src + BitVec.ofNat 32 n).toNat + m ≤ size ∧
      ∀ mem, Memory.readBytes mem (src + BitVec.ofNat 32 n).toNat m = Memory.readBytes mem (src.toNat + n) m := by
  have hsum : (src + BitVec.ofNat 32 n).toNat = (src.toNat + n) % 2 ^ 32 := by
    rw [BitVec.toNat_add, BitVec.toNat_ofNat, Nat.add_mod_mod]
  cases m with
  | zero => exact ⟨by omega, fun _ => rfl⟩
  | succ m =>
    rw [Nat.mod_eq_of_lt (by omega)] at hsum
    exact ⟨by omega, fun mem => by rw [hsum]⟩

/-- Settles O22: the bytes of the whole range are those of the first part and then the second, and Fold chains. -/
theorem splitChecksumEqualsWholeChecksum : Obligations.SplitChecksumEqualsWholeChecksum := by
  intro s n m ⟨_, _, _, hsize⟩ hin hlt
  have hlen {k : Nat} (hk : k ≤ n + m) : (BitVec.ofNat 32 k).toNat = k := by
    rw [BitVec.toNat_ofNat, Nat.mod_eq_of_lt (by omega)]
  have hn := hlen (Nat.le_add_right n m)
  have hm := hlen (Nat.le_add_left m n)
  have hnm := hlen (Nat.le_refl (n + m))
  obtain ⟨hin₂, hread⟩ := second_part_at hin hsize
  refine ⟨_, _, _, exec_csum_inBounds ?first, exec_csumc_inBounds ?second, exec_csum_inBounds ?whole, ?acc, rfl, rfl⟩
  case first =>
    change srcAddr s + (BitVec.ofNat 32 n).toNat ≤ s.cfg.memSize
    omega
  case second =>
    change (s.args.src + BitVec.ofNat 32 n).toNat + (BitVec.ofNat 32 m).toNat ≤ s.cfg.memSize
    omega
  case whole =>
    change srcAddr s + (BitVec.ofNat 32 (n + m)).toNat ≤ s.cfg.memSize
    omega
  case acc =>
    change fold (Memory.readBytes s.mem (s.args.src + BitVec.ofNat 32 n).toNat (BitVec.ofNat 32 m).toNat)
        (fold (Memory.readBytes s.mem (srcAddr s) (BitVec.ofNat 32 n).toNat) s.args.seed) =
      fold (Memory.readBytes s.mem (srcAddr s) (BitVec.ofNat 32 (n + m)).toNat) s.args.seed
    rw [hn, hm, hnm, hread, Memory.readBytes_append, fold_append]
    rfl

/-! ## The high byte of a computed checksum -/

/-- A BUILD whose CODE is OK passed its checks. -/
theorem build_succeeded {s t : State} (h : exec .build s = .next t) (hok : codeField t.status = 0) :
    t = builtState s := by
  rcases execBuild_cases s with ⟨_, he⟩ | ⟨_, _, he⟩ | ⟨_, _, _, he⟩ | ⟨_, _, _, he⟩
  case inr.inr.inr => exact next_inj (he.symm.trans h)
  all_goals
    rw [next_inj (he.symm.trans h), State.setOutcome_status, codeField_statusWord] at hok
    cases codeBits_eq_zero.mp hok

theorem builtChecksum_lt (s : State) : (builtChecksum s).toNat < 256 := by
  rw [builtChecksum, fold_zero_toNat]
  exact BitVec.isLt _

/-- Byte 6 of a built packet is the high byte of its checksum (R77). -/
theorem read_builtState_checksum_high (s : State) : Memory.read (builtState s).mem (dstAddr s + 6) = 0 := by
  have hbyte (b : Byte) : byteOf (b.setWidth 16) 1 = 0 := by revert b; decide
  have hzero : byteOf (builtChecksum s) 1 = 0 := by rw [builtChecksum, fold_zero_eq_setWidth, hbyte]
  rw [← Memory.getD_readBytes (builtState s).mem (16 + srcLen s) (dstAddr s) 6 (by omega), readBytes_builtState]
  exact hzero

/-- A VALIDATE that reached the comparison left the recomputed checksum in ACC. -/
theorem acc_of_validate_compared {s t : State} {k : Fin 16} (h : exec (.validate k) s = .next t)
    (hcode : codeField t.status = 0 ∨ codeField t.status = 3) : t.acc = recomputed k s := by
  rcases execValidate_cases k s with ⟨_, he⟩ | ⟨_, _, he⟩ | ⟨_, _, _, he⟩ | ⟨_, _, _, he⟩ <;>
    rw [next_inj (he.symm.trans h)] at hcode ⊢
  case inr.inr.inl | inr.inr.inr => rfl
  all_goals
    rw [State.setOutcome_status, codeField_statusWord, codeBits_eq_zero, codeBits_eq_three] at hcode
    rcases hcode with hcode | hcode <;> cases hcode

/-- Settles O26: both checksums are a fold from 0. -/
theorem computedChecksumsFitTheLowByte : Obligations.ComputedChecksumsFitTheLowByte := by
  refine ⟨fun s t h hok => ?_, fun s t k h hcode => ?_⟩
  · rw [build_succeeded h hok]
    exact ⟨Nat.le_of_lt_succ (builtChecksum_lt s), rfl, read_builtState_checksum_high s⟩
  · rw [acc_of_validate_compared h hcode]
    exact Nat.le_of_lt_succ (recomputed_lt k s)

/-! ## BUILD after reset -/

section
variable (cfg : Config) (m : Memory)

theorem builtHeader_resetWith (ck : Half) : builtHeader (State.resetWith cfg m) ck = packHeader 0 16 ck 0 := by
  have hsize : builtSize (State.resetWith cfg m) = 16 := (by decide : 16 + (0 : Word).setWidth 16 = 16)
  have hts : argTs (State.resetWith cfg m) = 0 := (by decide : 0#32 ++ 0#32 = 0#64)
  rw [builtHeader, hsize, hts]
  rfl

theorem srcBytes_resetWith : srcBytes (State.resetWith cfg m) = [] := rfl

theorem builtChecksum_resetWith : builtChecksum (State.resetWith cfg m) = 0x0054 := by
  rw [builtChecksum, builtHeader_resetWith, srcBytes_resetWith]
  decide

/-- The packet BUILD makes right after reset is a header alone (R233). -/
theorem builtPacket_resetWith : builtPacket (State.resetWith cfg m) = (packHeader 0 16 0x0054 0).toList := by
  rw [builtPacket, builtChecksum_resetWith, builtHeader_resetWith, srcBytes_resetWith, List.append_nil]

end

/-- Settles O27: the operands are 0, so the packet is a header with no payload. -/
theorem buildRunsFromReset : Obligations.BuildRunsFromReset := by
  intro cfg m hsize
  refine ⟨_, exec_build_inBounds (s := State.resetWith cfg m) (Nat.zero_le _) (Nat.zero_le _) hsize, rfl,
    builtChecksum_resetWith cfg m, ?_⟩
  exact (readBytes_builtState _).trans ((builtPacket_resetWith cfg m).trans (by decide))

end Sys2Proof.Machine
end

section
/-! Runs of host steps: a run inside the interface never stops, it ends with its last host step, and a pseudo-instruction
runs as the command it stands for (spec 60_exceptions.md R205, 70_reset_and_hazards.md R243, 30_encoding.md R71). -/

namespace Sys2Proof.Machine

/-! ## Runs -/

theorem run_zero (s : State) : core.run 0 s = .next s := rfl

theorem run_succ {s t : State} (h : step s = .next t) (k : Nat) : core.run (k + 1) s = core.run k t := by
  have hcore : core.step s = .next t := h
  simp only [Host.Core.run, hcore]

/-- A run that ends in a next state took a first step and ran on from there. -/
theorem step_of_run_succ {k : Nat} {s t : State} (h : core.run (k + 1) s = .next t) :
    ∃ u, step s = .next u ∧ core.run k u = .next t := by
  have hcore : core.step s = step s := rfl
  simp only [Host.Core.run, hcore] at h
  split at h
  · exact ⟨_, ‹_›, h⟩
  · cases h
  · cases h

theorem step_idle {s : State} (hs : s.host = []) : step s = .next s := by rw [step, hs]

/-- A machine without a host step keeps its state however long it runs. -/
theorem run_idle {s : State} (hs : s.host = []) (k : Nat) : core.run k s = .next s := by
  induction k with
  | zero => rfl
  | succ k ih => rw [run_succ (step_idle hs), ih]

theorem run_add {n : Nat} : ∀ {s t : State}, core.run n s = .next t → ∀ m, core.run (n + m) s = core.run m t := by
  induction n with
  | zero =>
    intro s t h m
    rw [Nat.zero_add, next_inj h]
  | succ n ih =>
    intro s t h m
    obtain ⟨u, hu, hrun⟩ := step_of_run_succ h
    rw [Nat.succ_add, run_succ hu, ih hrun]

/-- A step performs the first host step of the program and leaves the rest. -/
theorem step_host {s t : State} (h : step s = .next t) : t.host = s.host.tail := by
  rcases step_next_cases h with ⟨hs, rfl⟩ | ⟨_, _, hs, _, rfl⟩ | ⟨_, rest, _, hs, _, hx⟩ | ⟨_, _, _, hs, _, rfl⟩ |
    ⟨_, _, _, _, hs, _, _, rfl⟩ | ⟨_, _, hs, _, rfl⟩ | ⟨_, _, _, hs, _, rfl⟩
  case inl => rw [hs, List.tail_nil]
  case inr.inr.inl => rw [eq_effect_of_exec hx, hs]; rfl
  all_goals rw [hs]; rfl

theorem run_host {n : Nat} : ∀ {s t : State}, core.run n s = .next t → t.host = s.host.drop n := by
  induction n with
  | zero =>
    intro s t h
    rw [next_inj h, List.drop_zero]
  | succ n ih =>
    intro s t h
    obtain ⟨u, hu, hrun⟩ := step_of_run_succ h
    rw [ih hrun, step_host hu, List.drop_tail]

/-- Settles O46: each step takes one host step off the program, and an empty program idles. -/
theorem runsEndWithTheirLastHostStep : Obligations.RunsEndWithTheirLastHostStep := by
  intro s t h
  have hdone : t.host = [] := (run_host h).trans List.drop_length
  exact ⟨hdone, fun m => (run_add h m).trans (run_idle hdone m)⟩

/-! ## Runs inside the interface -/

theorem step_safe {s : State} (hs : s.safe) : ∃ t, step s = .next t ∧ t.safe := by
  obtain ⟨t, ht⟩ : ∃ t, step s = .next t := by
    cases hh : s.host with
    | nil => exact ⟨s, step_idle hh⟩
    | cons h rest =>
      rw [step_eq_hostStep hh]
      exact hostStep_accepted (s := s.setHost rest) (hs h (hh ▸ List.mem_cons_self))
  refine ⟨t, ht, fun h hmem => ?_⟩
  rw [step_host ht] at hmem
  rw [step_cfg ht]
  exact hs h (List.mem_of_mem_tail hmem)

/-- Settles O45: the block takes an accepted host step, and the ones left are accepted again. -/
theorem acceptedHostProgramsNeverStop : Obligations.AcceptedHostProgramsNeverStop := by
  intro n
  induction n with
  | zero => exact fun s _ => ⟨s, run_zero s⟩
  | succ n ih =>
    intro s hs
    obtain ⟨t, ht, hsafe⟩ := step_safe hs
    obtain ⟨u, hu⟩ := ih t hsafe
    exact ⟨u, (run_succ ht n).trans hu⟩

/-! ## Pseudo-instructions -/

/-- The lines `wr NAME, v` for a list of registers and values. -/
def operandLines (l : List (Reg × Word)) : List HostStep := l.flatMap fun p => HostProgram.wr p.1 p.2

/-- `s` with a list of registers written, first one first. -/
def State.writeRegs (l : List (Reg × Word)) (s : State) : State := l.foldl (fun u p => writeReg p.1 p.2 u) s

/-- An ARG register stands at its offset, which is aligned and is not CMD's (R19). -/
theorem regAt_argReg {r : Reg} (h : (argWidth r).isSome = true) (n : Nat) :
    regAt n (BitVec.ofNat 12 (regOffset r)) = some r ∧ r ≠ .cmd ∧ (BitVec.ofNat 12 (regOffset r)).toNat % 4 = 0 := by
  cases r with
  | argMsgtype | argPktsize | argChecksum | argSeed | argTsHi | argTsLo | argSrc | argLen | argDst =>
    exact ⟨rfl, nofun, rfl⟩
  | _ => cases h

theorem writeReg_taken (r : Reg) (v : Word) (rest : List HostStep) (s : State) :
    (writeReg r v s).taken rest = writeReg r v (s.taken rest) := by
  cases r <;> rfl

/-- A command mnemonic, performed as the last line of a program. -/
theorem run_mnemonic {s : State} {i : Instr} (hs : s.host = HostProgram.cmd i) (hwf : i.wf s.cfg.numSlots = true) :
    core.run 1 s = exec i (s.taken []) := by
  obtain ⟨t, ht⟩ := exec_is_next i (s.taken [])
  have hstep : step s = exec i (s.taken []) := (step_cmdWrite hs).trans (command_of_decode_ok (decode_encode hwf))
  exact (run_succ (hstep.trans ht) 0).trans ht.symm

/-- Lines that write ARG registers and then a mnemonic run as the command on the operands written (R71). -/
theorem run_operandLines {i : Instr} (l : List (Reg × Word)) : ∀ {s : State},
    s.host = operandLines l ++ HostProgram.cmd i → (∀ p ∈ l, (argWidth p.1).isSome = true) →
    i.wf s.cfg.numSlots = true → core.run (l.length + 1) s = exec i ((s.taken []).writeRegs l) := by
  induction l with
  | nil => exact fun hs _ hwf => run_mnemonic hs hwf
  | cons p l ih =>
    intro s hs hl hwf
    obtain ⟨hp, hl⟩ := List.forall_mem_cons.mp hl
    obtain ⟨hreg, hcmd, halign⟩ := regAt_argReg hp s.cfg.numSlots
    let u := s.taken (operandLines l ++ HostProgram.cmd i)
    obtain ⟨a, ha⟩ := writeReg_is_setArgs p.1 p.2 u
    have hstep : step s = .next (writeReg p.1 p.2 u) :=
      (step_regWrite hs halign).trans (writeOffset_of_regAt (s := u) hreg hcmd p.2)
    have hhost : (writeReg p.1 p.2 u).host = operandLines l ++ HostProgram.cmd i := by rw [ha]; rfl
    rw [List.length_cons, run_succ hstep, ih hhost hl (by rwa [writeReg_cfg]), writeReg_taken]
    rfl

theorem State.setArgs_setArgs (a b : ArgRegs) (s : State) : (s.setArgs a).setArgs b = s.setArgs b := rfl

/-- Settles O47: each pseudo-instruction is a list of ARG writes and a mnemonic. -/
theorem pseudoInstructionsRunTheirExpansion : Obligations.PseudoInstructionsRunTheirExpansion := by
  intro s dst mt ps ck src n seed x k hk idle hi lo
  have hhi : hi = stampHi x := (stampHi_eq_setWidth_shift x).symm
  have hlo : lo = stampLo x := (stampLo_eq_setWidth x).symm
  rw [hhi, hlo]
  have run (i : Instr) (l : List (Reg × Word)) := run_operandLines (i := i) l
    (s := { s with host := operandLines l ++ HostProgram.cmd i }) rfl
  have hlen : ∀ p ∈ [(Reg.argSrc, src), (Reg.argLen, n)], (argWidth p.1).isSome = true := by simp [argWidth]
  have hheader : ∀ p ∈ [(Reg.argSrc, src), (Reg.argLen, 16)], (argWidth p.1).isSome = true := by simp [argWidth]
  refine ⟨(run .pack [(.argDst, dst), (.argMsgtype, mt), (.argPktsize, ps), (.argChecksum, ck),
      (.argTsHi, stampHi x), (.argTsLo, stampLo x)] (by simp [argWidth]) rfl).trans ?_,
    (run .unpack [(.argSrc, src), (.argLen, 16)] hheader rfl).trans ?_,
    (run .csum [(.argSrc, src), (.argLen, n), (.argSeed, seed)] (by simp [argWidth]) rfl).trans ?_,
    (run .csumc [(.argSrc, src), (.argLen, n)] hlen rfl).trans ?_,
    (run .build [(.argMsgtype, mt), (.argTsHi, stampHi x), (.argTsLo, stampLo x), (.argSrc, src), (.argLen, n),
      (.argDst, dst)] (by simp [argWidth]) rfl).trans ?_,
    (run (.parse k) [(.argSrc, src), (.argLen, 16)] hheader (decide_eq_true hk)).trans ?_,
    (run (.validate k) [(.argSrc, src), (.argLen, n)] hlen (decide_eq_true hk)).trans ?_⟩
  all_goals
    simp only [State.writeRegs, List.foldl_cons, List.foldl_nil, writeReg, State.setArgs_args, State.setArgs_setArgs]
    rfl

end Sys2Proof.Machine
end
